-- ==== Sys2Proof/Word.lean ====
section
/-! DEFINITION. The bit-vector types of the block (R7, R10, R11): every value is unsigned, a bus word has 32 bits,
an operand or result 256. -/

namespace Sys2Proof

/-- A byte of the little-endian encoding of a value (R10, R40). -/
abbrev Byte := BitVec 8

/-- A bus word, `WORDW` = 32 bits (R7). -/
abbrev Word := BitVec 32

/-- A whole operand or result, `OPW` = 256 bits (R7). -/
abbrev Value := BitVec 256

/-- A register as it is held: `NWORDS` = 8 words, word 0 least significant (R7, R12, R17). -/
abbrev Words := Vector Word 8

/-- A byte offset from `BASE`, 0x00 to 0x7F: the block decodes these seven bits only (R14, R39). -/
abbrev Offset := BitVec 7

end Sys2Proof
end

