-- ==== Sys2Proof/Syntax.lean ====
section
/-! DEFINITION. The commands of the block: one constructor for each row of spec/opcode_table.json. A command word has
no register field and no immediate field (R60, R61, R62), so no constructor has an argument. -/

namespace Sys2Proof

/-- A legal command (R63, R64, R65). -/
inductive Instr where
  | nop
  | add
  | sub
deriving DecidableEq, Repr

end Sys2Proof
end

