-- ==== Sys2Proof/Decode.lean ====
section
/-! DEFINITION. Decoding a command word by its two fields (R60), total on all 2^32 words (R67), and after it the
encoder, from the encodings of R63, R64 and R65. -/

namespace Sys2Proof

/-- Bits 3:0, the operation (R60). -/
def opcField (w : Word) : BitVec 4 := w.extractLsb' 0 4

/-- Bits 31:4, which must be 0 (R60). -/
def rsvField (w : Word) : BitVec 28 := w.extractLsb' 4 28

/-- The operation codes (R60): 0x3 to 0xF are illegal. -/
def opcodeOf (opc : BitVec 4) : Option Instr :=
  if opc = 0x0 then some .nop
  else if opc = 0x1 then some .add
  else if opc = 0x2 then some .sub
  else none

/-- The command a word stands for; `none` is ILLEGAL (R60, R66, R67). A set bit in `rsv` makes the word illegal,
whatever `opc` holds. -/
def decode (w : Word) : Option Instr :=
  if rsvField w = 0 then opcodeOf (opcField w) else none

/-- The command word of an instruction (R63, R64, R65). -/
def encode : Instr → Word
  | .nop => 0x00000000
  | .add => 0x00000001
  | .sub => 0x00000002

/-- What the decoder reads from an instruction of `nbits` bits `w`: every command is exactly one 32-bit word (R59), so
a number that does not fit one is refused. -/
def decodeTableWord (nbits w : Nat) : Option Instr :=
  if w % 2 ^ nbits < 2 ^ 32 then decode (BitVec.ofNat 32 (w % 2 ^ nbits)) else none

end Sys2Proof
end

