-- ==== Sys2Proof/Config.lean ====
section
/-! DEFINITION. What an instance fixes and no step changes (R7, R8, R33). The open parameters have no body: a statement
about them holds for every value. -/

namespace Sys2Proof.Config

/-- The field prime, 2^255 - 19 (R7). -/
def P : Nat := 2 ^ 255 - 19

/-- The size of the register window in bytes (R7). -/
def WINDOW : Nat := 0x80

/-- What the host does with an error response (R8, R99: "a host fault, an ignored response"). -/
inductive BusErrHandling where
  /-- the error response stops the host's program -/
  | hostFault
  /-- the host goes on with its next statement -/
  | ignored
deriving DecidableEq, Repr, Inhabited

/-- The physical port (R8: "for example a simple valid/ready or APB-like port"). -/
inductive BusProtocol where
  | validReady
  | apbLike
  /-- any other single-port 32-bit slave protocol -/
  | other (name : String)
deriving DecidableEq, Repr, Inhabited

/-- `BASE` divided by the window's size; open (R8, log 8). -/
opaque baseIndex : Nat

/-- `BASE`, the address of the window in the host's address space, aligned to 0x80 (R8, R39). -/
def base : Nat := WINDOW * baseIndex

/-- `LATENCY` less one; open (R8, log 7). -/
opaque latencyLessOne : Nat

/-- `LATENCY`, at least 1, one number for ADD and SUB. No rule of the untimed model reads it (R8, R127). -/
def latency : Nat := latencyLessOne + 1

/-- `BUS_PROTOCOL`. No rule depends on it beyond the transactions' meaning (R8, R68). -/
opaque busProtocol : BusProtocol

/-- `BUSERR_HANDLING`; open (R8, R99, log 4). -/
opaque busErrHandling : BusErrHandling

end Sys2Proof.Config
end

