-- ==== Sys2Proof/Machine/Transaction.lean ====
section
/-! DEFINITION. What a host sends to the block: bus transactions (R68) and the statements of a host script (R70), and
what comes back. Plain data. -/

namespace Sys2Proof.Machine

/-- The width of a transaction. The block performs `bytes 4` only (R44, log 12). -/
inductive Size where
  /-- a single access of `n` bytes -/
  | bytes (n : Nat)
  /-- a burst of `beats` accesses of `n` bytes each -/
  | burst (beats n : Nat)
deriving DecidableEq, Repr

/-- The direction of a transaction, and the 32-bit data of a write (R68). -/
inductive Request where
  | rd
  | wr (v : Word)
deriving DecidableEq, Repr

/-- A host transaction (R68). -/
structure Transaction where
  off : Offset
  size : Size
  req : Request
deriving DecidableEq, Repr

/-- The block's answer to a transaction (R45, R99, log 5). -/
inductive Response where
  /-- a performed read and its data -/
  | rdOk (v : Word)
  /-- a performed write -/
  | wrOk
  /-- a read answered with an error response, and the data returned with it -/
  | rdError (v : Word)
  /-- a write answered with an error response -/
  | wrError
deriving DecidableEq, Repr

/-- A statement of a host script (R70): one transaction, or `POLL off, mask, val`. `WR` and `RD` are the transactions
of 4 bytes (`wr` and `rd` below); a host may also send one that the block refuses. -/
inductive Stmt where
  | txn (t : Transaction)
  | poll (off : Offset) (mask val : Word)
deriving DecidableEq, Repr

/-- `RD off` as a transaction (R70). -/
def readOf (off : Offset) : Transaction := ⟨off, .bytes 4, .rd⟩

/-- `WR off, v` as a transaction (R70). -/
def writeOf (off : Offset) (v : Word) : Transaction := ⟨off, .bytes 4, .wr v⟩

/-- The statement `RD off` (R70). -/
def rd (off : Offset) : Stmt := .txn (readOf off)

/-- The statement `WR off, v` (R70). -/
def wr (off : Offset) (v : Word) : Stmt := .txn (writeOf off v)

end Sys2Proof.Machine
end

