-- ==== Sys2Proof/Machine/State.lean ====
section
/-! DEFINITION. The machine's state: the registers of R17, the latch of R26, and the environment the step reads (the
reset input, the host's script, the last bus answer, who moves next). -/

namespace Sys2Proof.Machine

/-- The operation of a command in flight (R26). -/
inductive Op where
  | add
  | sub
deriving DecidableEq, Repr

/-- What the latch L holds while a command is in flight (R26). -/
structure Latch where
  op : Op
  a : Value
  b : Value
deriving DecidableEq, Repr

/-- The four fields of STATUS (R22). Its other bits read as zero and hold nothing. -/
structure Status where
  busy : Bool
  done : Bool
  errIllegal : Bool
  errBusy : Bool
deriving DecidableEq, Repr

/-- Who moves at a step (R15, R52), and the changes of the reset input (R114). -/
inductive Turn where
  | host
  | engine
  | assertReset
  | releaseReset
deriving DecidableEq, Repr

/-- The state of the machine. -/
structure State where
  /-- operand register A (R18) -/
  a : Words
  /-- operand register B (R19) -/
  b : Words
  /-- result register R (R20) -/
  r : Words
  /-- STATUS (R22) -/
  status : Status
  /-- the in-flight latch L (R26) -/
  latch : Option Latch
  /-- the level of the reset input (R114, R117) -/
  resetAsserted : Bool
  /-- what the HOST has still to do, first statement first (R15, R51; log 3) -/
  script : List Stmt
  /-- the answer to the last transaction, if there was one (log 5) -/
  response : Option Response
  /-- who moves next, first turn first (R52; log 1) -/
  turns : List Turn
deriving DecidableEq, Repr

/-- Why the machine stops. -/
inductive Fault where
  /-- Raised by the HOST's step when the block answers with an error response and `BUSERR_HANDLING` is a host fault
  (R99). Safe: the block's own state is unchanged by the transaction, and the model only stops earlier (log 4). -/
  | busError
deriving DecidableEq, Repr

/-- Why an instruction has no meaning. -/
inductive Refusal where
  /-- For an arm of `exec` without a meaning. Safe. No arm uses it: every command has its meaning. -/
  | notModelled (mnemonic : String)
deriving DecidableEq, Repr

/-- A register of eight zero words. -/
def zeroWords : Words := #v[0, 0, 0, 0, 0, 0, 0, 0]

/-- STATUS after reset, 0x00000000 (R35). -/
def Status.reset : Status := ⟨false, false, false, false⟩

/-- The machine right after reset (R35, R115): reset released, no command in flight, nothing for the host to do. -/
def State.reset : State where
  a := zeroWords
  b := zeroWords
  r := zeroWords
  status := Status.reset
  latch := none
  resetAsserted := false
  script := []
  response := none
  turns := []

end Sys2Proof.Machine
end

