-- ==== Sys2Proof/Machine/Operands.lean ====
section
/-! DEFINITION. Words, bytes and values (R10, R12, R40, R61), the slots of the window (R17, R69), which transactions the
block performs (R43, R44, R68), and which address selects it (R39). -/

namespace Sys2Proof.Machine

/-- `W(V, i)` = V[32i+31 : 32i] (R10). -/
def wordOf (v : Value) (i : Fin 8) : Word := v.extractLsb' (32 * i) 32

/-- `Byte(V, j)` = V[8j+7 : 8j] (R10). -/
def byteOf (v : Value) (j : Fin 32) : Byte := v.extractLsb' (8 * j) 8

/-- The eight words of a value, word 0 first (R40). -/
def wordsOf (v : Value) : Words :=
  #v[wordOf v 0, wordOf v 1, wordOf v 2, wordOf v 3, wordOf v 4, wordOf v 5, wordOf v 6, wordOf v 7]

/-- The value of a register, `{W7, …, W0}`: no extension, no masking, no scaling (R12, R61). -/
def valueOf (w : Words) : Value := w[7] ++ w[6] ++ w[5] ++ w[4] ++ w[3] ++ w[2] ++ w[1] ++ w[0]

/-- A word from its four bytes, the first least significant (R40). -/
def wordOfBytes (e0 e1 e2 e3 : Byte) : Word := e3 ++ e2 ++ e1 ++ e0

/-- The 32-byte little-endian encoding of a value, byte 0 first (R40). -/
def encodingOf (v : Value) : Vector Byte 32 := Vector.ofFn (byteOf v)

/-- The eight words of a 32-byte encoding, in ascending address order (R40). -/
def wordsOfEncoding (e : Vector Byte 32) : Words :=
  #v[wordOfBytes e[0] e[1] e[2] e[3], wordOfBytes e[4] e[5] e[6] e[7],
    wordOfBytes e[8] e[9] e[10] e[11], wordOfBytes e[12] e[13] e[14] e[15],
    wordOfBytes e[16] e[17] e[18] e[19], wordOfBytes e[20] e[21] e[22] e[23],
    wordOfBytes e[24] e[25] e[26] e[27], wordOfBytes e[28] e[29] e[30] e[31]]

/-- What a word slot of the window is (R17, R69). -/
inductive Slot where
  | a (i : Fin 8)
  | b (i : Fin 8)
  | r (i : Fin 8)
  | cmd
  | status
  | reserved
deriving DecidableEq, Repr

/-- The eight offsets of a word of a register, by off[4:2]. -/
def wordIndex (off : Offset) : Fin 8 := (off.extractLsb' 2 3).toFin

/-- The slot that off[6:2] selects (R69): 0 to 7 are A, 8 to 15 are B, 16 to 23 are R, 24 is CMD, 25 is STATUS and 26
to 31 are reserved. -/
def slotOf (off : Offset) : Slot :=
  let n := (off.extractLsb' 2 5).toNat
  if n < 8 then .a (wordIndex off)
  else if n < 16 then .b (wordIndex off)
  else if n < 24 then .r (wordIndex off)
  else if n = 24 then .cmd
  else if n = 25 then .status
  else .reserved

/-- The offset of word `i` of the register whose slots begin at `first`. -/
def wordOffset (first : Nat) (i : Fin 8) : Offset := BitVec.ofNat 7 (first + 4 * i)

/-- 0x00 + 4i, where A.W[i] lives (R17). -/
def offA (i : Fin 8) : Offset := wordOffset 0x00 i

/-- 0x20 + 4i, where B.W[i] lives (R17). -/
def offB (i : Fin 8) : Offset := wordOffset 0x20 i

/-- 0x40 + 4i, where R.W[i] lives (R17). -/
def offR (i : Fin 8) : Offset := wordOffset 0x40 i

/-- The offset of CMD (R17). -/
def offCMD : Offset := 0x60

/-- The offset of STATUS (R17). -/
def offSTATUS : Offset := 0x64

/-- off[1:0] = 0 (R43). -/
def aligned (off : Offset) : Bool := off.extractLsb' 0 2 == 0

/-- The block performs a transaction only when it is 4 bytes wide and aligned (R43, R44, R68). -/
def performable (t : Transaction) : Bool := t.size == .bytes 4 && aligned t.off

/-- The offset at which an address of the host's address space reaches a window at `base`, if it does: the block sees
bits 6:0 only, and the rest belongs to the platform (R39, R49). -/
def selectAt (base addr : Nat) : Option Offset :=
  if base ≤ addr ∧ addr < base + Config.WINDOW then some (BitVec.ofNat 7 addr) else none

/-- `selectAt` for the window at `BASE`. -/
def select (addr : Nat) : Option Offset := selectAt Config.base addr

/-- The transaction that an access to an address is at the block's port, if it reaches the block (R39, R68). -/
def accessAt (addr : Nat) (size : Size) (req : Request) : Option Transaction :=
  (select addr).map fun off => ⟨off, size, req⟩

end Sys2Proof.Machine
end

