-- ==== Sys2Proof/Machine/Arithmetic.lean ====
section
/-! DEFINITION. Modular addition and subtraction (R73, R74): the sum or difference is formed exactly on integers and
then reduced to [0, P) (R77, R80). -/

namespace Sys2Proof.Machine

/-- `ModAdd(a, b) = (a + b) mod P` (R73). -/
def modAdd (a b : Value) : Value := BitVec.ofNat 256 ((a.toNat + b.toNat) % Config.P)

/-- `ModSub(a, b) = (a - b) mod P`, the representative in [0, P) also of a negative difference (R11, R74). -/
def modSub (a b : Value) : Value :=
  BitVec.ofInt 256 (((a.toNat : Int) - (b.toNat : Int)) % (Config.P : Int))

/-- What a command in flight will write to R (R86). -/
def Latch.result (l : Latch) : Value :=
  match l.op with
  | .add => modAdd l.a l.b
  | .sub => modSub l.a l.b

end Sys2Proof.Machine
end

