-- ==== Sys2Proof/Machine/Flags.lean ====
section
/-! DEFINITION. STATUS as a word (R22, R45) and every change of its fields (R22 to R25). The arithmetic has no flag
(R31, R81). -/

namespace Sys2Proof.Machine

/-- `zext_32({ERR_BUSY, ERR_ILLEGAL, DONE, BUSY})` (R45). -/
def statusWord (s : Status) : Word :=
  (BitVec.ofBool s.errBusy ++ BitVec.ofBool s.errIllegal ++ BitVec.ofBool s.done ++ BitVec.ofBool s.busy).setWidth 32

/-- BUSY <- 1, DONE <- 0 (R84). -/
def Status.accepted (s : Status) : Status := { s with busy := true, done := false }

/-- BUSY <- 0, DONE <- 1 (R86). -/
def Status.completed (s : Status) : Status := { s with busy := false, done := true }

/-- ERR_ILLEGAL <- 1 (R97). -/
def Status.raisedIllegal (s : Status) : Status := { s with errIllegal := true }

/-- ERR_BUSY <- 1 (R98). -/
def Status.raisedBusy (s : Status) : Status := { s with errBusy := true }

/-- The write of `v` to STATUS: v[2] clears ERR_ILLEGAL, v[3] clears ERR_BUSY, every other bit is ignored (R22). -/
def Status.written (s : Status) (v : Word) : Status :=
  { s with errIllegal := s.errIllegal && !v[2], errBusy := s.errBusy && !v[3] }

end Sys2Proof.Machine
end

