-- ==== Sys2Proof/Machine/Ops.lean ====
section
/-! DEFINITION. The named operations over the registers: reading a slot (R45), writing an operand word or STATUS (R46),
the two errors that set a flag (R97, R98), acceptance (R84), completion (R86) and reset (R116). The block has no trap
and no return from one (R103, R104): raising an error is all there is of an exception. -/

namespace Sys2Proof.Machine

/-- What any step of the machine answers. -/
abbrev Result := Host.Outcome State Fault Refusal

/-- `MemRead(off, 4)` of an aligned offset (R45). -/
def memRead (off : Offset) (s : State) : Word :=
  match slotOf off with
  | .a i => s.a[i]
  | .b i => s.b[i]
  | .r i => s.r[i]
  | .cmd => 0x00000000
  | .status => statusWord s.status
  | .reserved => 0x00000000

/-- `A.W[i] <- v`, also while BUSY = 1 (R46). -/
def writeA (i : Fin 8) (v : Word) (s : State) : State := { s with a := s.a.set i v }

/-- `B.W[i] <- v`, also while BUSY = 1 (R46). -/
def writeB (i : Fin 8) (v : Word) (s : State) : State := { s with b := s.b.set i v }

/-- The write-1-to-clear write of STATUS (R22, R46). -/
def writeStatus (v : Word) (s : State) : State := { s with status := s.status.written v }

/-- `raise IllegalCommand()` (R97). -/
def raiseIllegalCommand (s : State) : State := { s with status := s.status.raisedIllegal }

/-- `raise BusyCommand()` (R98). -/
def raiseBusyCommand (s : State) : State := { s with status := s.status.raisedBusy }

/-- `Accept(op)`: all 512 operand bits are copied at this instant (R26, R84). -/
def accept (op : Op) (s : State) : State :=
  { s with latch := some ⟨op, valueOf s.a, valueOf s.b⟩, status := s.status.accepted }

/-- What ADD and SUB share at the write to CMD: dropped while BUSY = 1, else accepted (R82, R83, R87). -/
def start (op : Op) (s : State) : State :=
  if s.status.busy then raiseBusyCommand s else accept op s

/-- `Complete()` for the command `l`, all eight words of R at once (R86). -/
def complete (l : Latch) (s : State) : State :=
  { s with r := wordsOf l.result, latch := none, status := s.status.completed }

/-- Every state element of the block to its reset value; a command in flight is aborted (R35, R116). The environment's
fields stay. -/
def resetBlock (s : State) : State :=
  { s with a := zeroWords, b := zeroWords, r := zeroWords, status := Status.reset, latch := none }

end Sys2Proof.Machine
end

