-- ==== Sys2Proof/Machine/Commands.lean ====
section
/-! DEFINITION. The meaning of each command at the host's write to CMD (R82, R83, R85, R87). The result of ADD and SUB is
written later, by the ENGINE's completion (R86). -/

namespace Sys2Proof.Machine

/-- NOP: no effect, also while BUSY = 1 (R85). -/
def execNop (s : State) : Result := .next s

/-- ADD (R82). -/
def execAdd (s : State) : Result := .next (start .add s)

/-- SUB (R83). -/
def execSub (s : State) : Result := .next (start .sub s)

end Sys2Proof.Machine
end

