-- ==== Sys2Proof/Machine/Bus.lean ====
section
/-! DEFINITION. Performing a host transaction: the command dispatcher (R87), `MemWrite` (R46), the error response (R99)
and the order in which errors are checked (R101). -/

namespace Sys2Proof.Machine

/-- `ExecuteCommand(CMDW)` (R87): an illegal word raises IllegalCommand, whatever BUSY is. -/
def executeCommand (w : Word) (s : State) : Result :=
  match decode w with
  | none => .next (raiseIllegalCommand s)
  | some i => exec i s

/-- `MemWrite(off, 4, v)` of an aligned offset (R46). -/
def memWrite (off : Offset) (v : Word) (s : State) : Result :=
  match slotOf off with
  | .a i => .next (writeA i v s)
  | .b i => .next (writeB i v s)
  | .r _ => .next s
  | .cmd => executeCommand v s
  | .status => .next (writeStatus v s)
  | .reserved => .next s

/-- The bus answers with `p`. -/
def respond (p : Response) (s : State) : State := { s with response := some p }

/-- The data a read returns: `MemRead`, or 0 with an error response (R43, R44, R45, R99). -/
def readData (t : Transaction) (s : State) : Word :=
  if performable t then memRead t.off s else 0x00000000

/-- The error response to a transaction; a read's comes with data 0 (R99). -/
def errorResponse (t : Transaction) : Response :=
  match t.req with
  | .rd => .rdError 0x00000000
  | .wr _ => .wrError

/-- `raise BusError()`: an error response and no change of the block; the host's reaction is `BUSERR_HANDLING`, the
argument `h` (R8, R99, log 4). -/
def raiseBusError (h : Config.BusErrHandling) (t : Transaction) (s : State) : Result :=
  match h with
  | .hostFault => .fault .busError
  | .ignored => .next (respond (errorResponse t) s)

/-- A performed write is acknowledged on the bus, also one that sets an error flag (R96, log 5). -/
def acknowledge (r : Result) : Result :=
  match r with
  | .next s => .next (respond .wrOk s)
  | .fault f => .fault f
  | .refused q => .refused q

/-- A transaction the block performs (R45, R46, R68). -/
def perform (t : Transaction) (s : State) : Result :=
  match t.req with
  | .rd => .next (respond (.rdOk (memRead t.off s)) s)
  | .wr v => acknowledge (memWrite t.off v s)

/-- A host transaction at the port: BusError is checked first, and such a transaction is never decoded (R68, R101). -/
def transact (h : Config.BusErrHandling) (t : Transaction) (s : State) : Result :=
  if performable t then perform t s else raiseBusError h t s

/-! ### The causes of error, as a table -/

/-- The three kinds of error (R96). -/
inductive Cause where
  | illegalCommand
  | busyCommand
  | busError
deriving DecidableEq, Repr

/-- The cause codes, the spec's own numbering (R96). -/
def Cause.code : Cause → Nat
  | .illegalCommand => 1
  | .busyCommand => 2
  | .busError => 3

/-- The error that a command written to CMD raises (R87, R97, R98). -/
def commandError (w : Word) (busy : Bool) : Option Cause :=
  match decode w with
  | none => some .illegalCommand
  | some .nop => none
  | some .add => if busy then some .busyCommand else none
  | some .sub => if busy then some .busyCommand else none

/-- The one error that a transaction raises, if it raises one (R96, R101). -/
def errorOf (t : Transaction) (s : State) : Option Cause :=
  if performable t then
    match t.req with
    | .rd => none
    | .wr v => if slotOf t.off = .cmd then commandError v s.status.busy else none
  else some .busError

end Sys2Proof.Machine
end

