-- ==== Sys2Proof/Machine/Agents.lean ====
section
/-! DEFINITION. The two agents and the reset input (R15, R52, R114 to R117), and the choice of who moves. -/

namespace Sys2Proof.Machine

/-- The HOST's step: the next transaction of its script (R15, R51). `POLL` is one RD, repeated until the masked data is
the value asked for (R70, log 11). With nothing left to do the host waits. -/
def hostStep (h : Config.BusErrHandling) (s : State) : Result :=
  match s.script with
  | [] => .next s
  | .txn t :: rest => transact h t { s with script := rest }
  | .poll off mask val :: rest =>
    if readData (readOf off) s &&& mask = val then transact h (readOf off) { s with script := rest }
    else transact h (readOf off) s

/-- The ENGINE's step, enabled exactly when L is not none (R86). -/
def engineStep (s : State) : State :=
  match s.latch with
  | none => s
  | some l => complete l s

/-- What one turn does. While reset is asserted neither agent has a step (R117, log 6), and the turn passes. -/
def takeTurn (h : Config.BusErrHandling) (t : Turn) (s : State) : Result :=
  match t with
  | .host => if s.resetAsserted then .next s else hostStep h s
  | .engine => if s.resetAsserted then .next s else .next (engineStep s)
  | .assertReset => .next { resetBlock s with resetAsserted := true }
  | .releaseReset => .next { s with resetAsserted := false }

/-- Who moves when no turn is listed: the ENGINE while a command is in flight, else the HOST (R52, R127, log 2). -/
def defaultTurn (s : State) : Turn := if s.latch.isSome then .engine else .host

/-- One step of the machine with the host's reaction to an error response as an argument (R8). -/
def stepUnder (h : Config.BusErrHandling) (s : State) : Result :=
  match s.turns with
  | [] => takeTurn h (defaultTurn s) s
  | t :: rest => takeTurn h t { s with turns := rest }

end Sys2Proof.Machine
end

