-- ==== Sys2Proof/Machine/Step.lean ====
section
/-! DEFINITION. The step, for the instance's own `BUSERR_HANDLING`, and where a command is placed so that the next step
runs it. The block fetches nothing (R30): a command comes as the host's write to CMD (R21, log 3). -/

namespace Sys2Proof.Machine

/-- One step of the machine. -/
def step (s : State) : Host.Outcome State Fault Refusal := Sys2Proof.Machine.stepUnder Config.busErrHandling s

/-- `s` with reset released and the host about to write the word `w` to CMD: its next statement, at its own turn. -/
def State.withFetchWord (s : State) (nbits w : Nat) : State :=
  { s with
    resetAsserted := false
    script := wr offCMD (BitVec.ofNat 32 (w % 2 ^ nbits)) :: s.script
    turns := .host :: s.turns }

end Sys2Proof.Machine
end

