-- ==== Sys2Proof/Machine/Script.lean ====
section
/-! DEFINITION. The pseudo-instructions of a host script and their expansions (R71), and the listing of a command word
(R72). -/

namespace Sys2Proof.Machine

/-- `NOP`, `ADD` or `SUB`: one write of the command's word to CMD (R71). -/
def command (i : Instr) : List Stmt := [wr offCMD (encode i)]

/-- `WRA V`: eight writes, ascending (R71). -/
def wra (v : Value) : List Stmt := (List.finRange 8).map fun i => wr (offA i) (wordOf v i)

/-- `WRB V`: eight writes, ascending (R71). -/
def wrb (v : Value) : List Stmt := (List.finRange 8).map fun i => wr (offB i) (wordOf v i)

/-- `RDR`: eight reads, ascending (R71). -/
def rdr : List Stmt := (List.finRange 8).map fun i => rd (offR i)

/-- `WAIT`: poll STATUS until BUSY = 0 (R71). -/
def wait : List Stmt := [.poll offSTATUS 0x00000001 0x00000000]

/-- `CHK`: read the status word (R71). -/
def chk : List Stmt := [rd offSTATUS]

/-- `CLR`: clear ERR_ILLEGAL and ERR_BUSY (R71). -/
def clr : List Stmt := [wr offSTATUS 0x0000000C]

/-- The mnemonic of a command (R72). -/
def mnemonic : Instr → String
  | .nop => "NOP"
  | .add => "ADD"
  | .sub => "SUB"

/-- Hexadecimal digit `k` of a word, digit 0 least significant. -/
def hexDigit (w : Word) (k : Nat) : Char := Nat.digitChar (w.extractLsb' (4 * k) 4).toNat

/-- A word as eight hexadecimal digits, most significant first (R9, log 13). -/
def hex (w : Word) : String :=
  String.ofList ([7, 6, 5, 4, 3, 2, 1, 0].map fun k => (hexDigit w k).toUpper)

/-- How a listing prints a command word: its mnemonic, or `.word` and the comment `; illegal` (R72, log 13). -/
def listing (w : Word) : String :=
  match decode w with
  | some i => mnemonic i
  | none => ".word 0x" ++ hex w ++ " ; illegal"

end Sys2Proof.Machine
end

