-- ==== Sys2Proof/WellFormed.lean ====
section
/-! DEFINITION. What a term must satisfy to mean anything. A command has no operand (R61, R62), so each is well formed;
a host statement is well formed when the block performs its transaction (R68). -/

namespace Sys2Proof

/-- Every command is well formed: the format has no register field and no immediate (R60). -/
def Instr.wf : Instr → Bool
  | .nop => true
  | .add => true
  | .sub => true

/-- A statement whose transactions are 4 bytes wide and aligned (R43, R44, R68). -/
def Machine.Stmt.wf : Machine.Stmt → Bool
  | .txn t => Machine.performable t
  | .poll off _ _ => Machine.performable (Machine.readOf off)

/-- A script that never gets an error response. -/
def Machine.scriptWf (l : List Machine.Stmt) : Bool := l.all Machine.Stmt.wf

end Sys2Proof
end

