-- ==== Sys2Proof/Safety.lean ====
section
/-! DEFINITION. The words the statements are made in: runs, the invariant, the reachable states, what a step is
(a transaction, a completion, a change of the reset input), and what an observer of the timing sees (R79). -/

namespace Sys2Proof.Machine

/-- `n` steps of the machine, stopping at the first fault or refusal. -/
def runSteps (n : Nat) (s : State) : Result := Host.Core.run Sys2Proof.core n s

/-- The machine's invariant: BUSY says whether a command is in flight (R27), BUSY and DONE are never both 1 (R37), R is
canonical (R36), and while reset is asserted the block is in its reset state (R116, R117). -/
abbrev State.Inv (s : State) : Prop :=
  s.status.busy = s.latch.isSome ∧
  (s.status.busy && s.status.done) = false ∧
  (valueOf s.r).toNat < Config.P ∧
  (s.resetAsserted = true →
    s.a = zeroWords ∧ s.b = zeroWords ∧ s.r = zeroWords ∧ s.status = Status.reset ∧ s.latch = none)

/-- The states a machine can come to from reset, whatever the host sends next, in whatever order the agents move and
however the reset input changes. -/
inductive Reachable : State → Prop where
  | reset : Reachable State.reset
  | outside (s : State) (script : List Stmt) (turns : List Turn) :
      Reachable s → Reachable { s with script := script, turns := turns }
  | step (s t : State) : Reachable s → step s = .next t → Reachable t

/-- What the machine's next step is. -/
inductive Event where
  /-- no agent has a step, or the host has nothing left to do -/
  | idle
  /-- the block is given a transaction -/
  | transaction (t : Transaction)
  /-- the command in flight completes -/
  | completion (l : Latch)
  /-- the reset input is asserted -/
  | reset
  /-- the reset input is released -/
  | release
deriving DecidableEq, Repr

/-- Whose turn it is. -/
def nextTurn (s : State) : Turn :=
  match s.turns with
  | [] => defaultTurn s
  | t :: _ => t

/-- The next step's event (R15, R86, R117). -/
def eventOf (s : State) : Event :=
  match nextTurn s with
  | .assertReset => .reset
  | .releaseReset => .release
  | .engine =>
    if s.resetAsserted then .idle
    else match s.latch with
      | none => .idle
      | some l => .completion l
  | .host =>
    if s.resetAsserted then .idle
    else match s.script with
      | [] => .idle
      | .txn t :: _ => .transaction t
      | .poll off _ _ :: _ => .transaction (readOf off)

/-- The command of an operation. -/
def Op.instr : Op → Instr
  | .add => .add
  | .sub => .sub

/-- The next step accepts a command: ADD or SUB is written to CMD while BUSY = 0 (R84). -/
def Accepts (s : State) (op : Op) : Prop :=
  eventOf s = .transaction (writeOf offCMD (encode op.instr)) ∧ s.status.busy = false

/-- A statement that writes ADD or SUB to CMD. -/
def Stmt.startsCommand (x : Stmt) : Bool :=
  x == wr offCMD (encode .add) || x == wr offCMD (encode .sub)

/-- A slot whose contents may be secret: an operand or the result (R79). -/
def Slot.secret : Slot → Bool
  | .a _ => true
  | .b _ => true
  | .r _ => true
  | .cmd => false
  | .status => false
  | .reserved => false

/-- A statement without the data it writes to an operand register. -/
def Stmt.publicView : Stmt → Stmt
  | .txn ⟨off, size, .wr v⟩ => .txn ⟨off, size, .wr (if (slotOf off).secret then 0 else v)⟩
  | .txn ⟨off, size, .rd⟩ => .txn ⟨off, size, .rd⟩
  | .poll off mask val => .poll off mask val

/-- A response without the data of a read. -/
def Response.publicView : Response → Response
  | .rdOk _ => .rdOk 0
  | .wrOk => .wrOk
  | .rdError v => .rdError v
  | .wrError => .wrError

/-- What does not depend on the values of the operands: STATUS, which command is in flight, the reset input, who moves,
which transactions are still to come and of what kind the last response was. -/
structure PublicView where
  status : Status
  op : Option Op
  resetAsserted : Bool
  script : List Stmt
  response : Option Response
  turns : List Turn
deriving DecidableEq, Repr

/-- The public part of a state. -/
def State.publicView (s : State) : PublicView where
  status := s.status
  op := s.latch.map Latch.op
  resetAsserted := s.resetAsserted
  script := s.script.map Stmt.publicView
  response := s.response.map Response.publicView
  turns := s.turns

/-- The public part of what a run answers. -/
def publicOutcome : Result → Host.Outcome PublicView Fault Refusal
  | .next s => .next s.publicView
  | .fault f => .fault f
  | .refused q => .refused q

/-- A statement that does not poll an operand or the result: a host whose own control flow does not depend on them
(R128). -/
def Stmt.pollsPublic : Stmt → Bool
  | .txn _ => true
  | .poll off _ _ => !(slotOf off).secret

/-- A transaction's error response does not stop the machine: the host ignores it, or it gets none. -/
def ScriptGoesOn (s : State) : Prop := Config.busErrHandling = .ignored ∨ scriptWf s.script = true

end Sys2Proof.Machine
end

