-- ==== Sys2Proof/Certificates/Slice0/Obligations.lean ====
section
/-! DEFINITION. The statements about the machine, made from the numbered rules of spec/. `h` is the host's reaction to
an error response: a statement holds whatever it is, and `step` is `stepUnder` at the instance's own. -/

open Sys2Proof Sys2Proof.Machine

/-! ### Encoding -/

/-- R67. -/
def Obligations.DecodeReadsTheWholeWord : Prop :=
  ∀ w : Word, decode w =
    if w = 0x00000000 then some .nop
    else if w = 0x00000001 then some .add
    else if w = 0x00000002 then some .sub
    else none

/-- R63, R64, R65: each command has exactly its one word, and decoding the encoder's word gives the command back. -/
def Obligations.EachCommandHasExactlyOneWord : Prop :=
  ∀ w : Word, (decode w = some .add ↔ w = 0x00000001) ∧ (decode w = some .sub ↔ w = 0x00000002) ∧
    (decode w = some .nop ↔ w = 0x00000000) ∧ ∀ i : Instr, decode w = some i ↔ w = encode i

/-- R66: the illegal words are 3 to 2^32 - 1, that is 2^32 - 3 of them; among them every word with opc 3 to 15 and
every word with a bit of rsv set; and a write of one to CMD raises IllegalCommand. -/
def Obligations.AllOtherWordsAreIllegal : Prop :=
  ∀ w : Word, (decode w = none ↔ 3 ≤ w.toNat) ∧ (3 ≤ (w.extractLsb' 0 4).toNat → decode w = none) ∧
    (w.extractLsb' 4 28 ≠ 0 → decode w = none) ∧
    (decode w = none → ∀ s : State, memWrite 0x60 w s = .next (raiseIllegalCommand s))

/-- The decode table of 95_test_vectors.md section 5. -/
def Obligations.WordsOfTheDecodeTable : Prop :=
  decode 0x00000000 = some .nop ∧ decode 0x00000001 = some .add ∧ decode 0x00000002 = some .sub ∧
    decode 0x00000003 = none ∧ decode 0x0000000F = none ∧ decode 0x00000010 = none ∧
    decode 0x00000011 = none ∧ decode 0x80000002 = none ∧ decode 0xFFFFFFFF = none

/-- R69. -/
def Obligations.SlotIsSelectedByBits6To2 : Prop :=
  (∀ (off : Offset) (i : Fin 8), off.toNat / 4 = i → slotOf off = .a i) ∧
    (∀ (off : Offset) (i : Fin 8), off.toNat / 4 = 8 + i → slotOf off = .b i) ∧
    (∀ (off : Offset) (i : Fin 8), off.toNat / 4 = 16 + i → slotOf off = .r i) ∧
    (∀ off : Offset, off.toNat / 4 = 24 → slotOf off = .cmd) ∧
    (∀ off : Offset, off.toNat / 4 = 25 → slotOf off = .status) ∧
    ∀ off : Offset, 26 ≤ off.toNat / 4 → slotOf off = .reserved

/-- R71. -/
def Obligations.PseudoInstructionsExpandAsListed : Prop :=
  command .nop = [wr 0x60 0x00000000] ∧ command .add = [wr 0x60 0x00000001] ∧
    command .sub = [wr 0x60 0x00000002] ∧
    (∀ v : Value, wra v = [wr 0x00 (wordOf v 0), wr 0x04 (wordOf v 1), wr 0x08 (wordOf v 2), wr 0x0C (wordOf v 3),
      wr 0x10 (wordOf v 4), wr 0x14 (wordOf v 5), wr 0x18 (wordOf v 6), wr 0x1C (wordOf v 7)]) ∧
    (∀ v : Value, wrb v = [wr 0x20 (wordOf v 0), wr 0x24 (wordOf v 1), wr 0x28 (wordOf v 2), wr 0x2C (wordOf v 3),
      wr 0x30 (wordOf v 4), wr 0x34 (wordOf v 5), wr 0x38 (wordOf v 6), wr 0x3C (wordOf v 7)]) ∧
    rdr = [rd 0x40, rd 0x44, rd 0x48, rd 0x4C, rd 0x50, rd 0x54, rd 0x58, rd 0x5C] ∧
    (∀ s : State, ∑ i : Fin 8, (memRead (offR i) s).toNat * 2 ^ (32 * i.val) = (valueOf s.r).toNat) ∧
    wait = [.poll 0x64 0x00000001 0x00000000] ∧ chk = [rd 0x64] ∧
    (∀ s : State, memRead 0x64 s = statusWord s.status) ∧ clr = [wr 0x64 0x0000000C]

/-! ### Words and values -/

/-- R12: the concatenation of the eight words, word 0 lowest, is their weighted sum. -/
def Obligations.RegisterValueIsTheWeightedSum : Prop :=
  ∀ w : Words, valueOf w = w[7] ++ w[6] ++ w[5] ++ w[4] ++ w[3] ++ w[2] ++ w[1] ++ w[0] ∧
    (valueOf w).toNat = ∑ i : Fin 8, (w[i]).toNat * 2 ^ (32 * i.val)

/-- R40. -/
def Obligations.ValuesAreLittleEndian : Prop :=
  ∀ v : Value,
    v.toNat = ∑ j : Fin 32, (byteOf v j).toNat * 2 ^ (8 * j.val) ∧
    (∀ i : Fin 8, (wordOf v i).toNat =
      (byteOf v (Fin.ofNat 32 (4 * i.val))).toNat + (byteOf v (Fin.ofNat 32 (4 * i.val + 1))).toNat * 2 ^ 8 +
        (byteOf v (Fin.ofNat 32 (4 * i.val + 2))).toNat * 2 ^ 16 +
        (byteOf v (Fin.ofNat 32 (4 * i.val + 3))).toNat * 2 ^ 24) ∧
    v.toNat = ∑ i : Fin 8, (wordOf v i).toNat * 2 ^ (32 * i.val) ∧
    (∀ i : Fin 8, slotOf (BitVec.ofNat 7 (0x00 + 4 * i)) = .a i ∧ slotOf (BitVec.ofNat 7 (0x20 + 4 * i)) = .b i ∧
      slotOf (BitVec.ofNat 7 (0x40 + 4 * i)) = .r i) ∧
    wordsOfEncoding (encodingOf v) = wordsOf v ∧ valueOf (wordsOf v) = v

/-! ### Arithmetic -/

/-- R73. -/
def Obligations.ModAddIsTheExactSumReduced : Prop :=
  ∀ a b : Value, (modAdd a b).toNat = (a.toNat + b.toNat) % (2 ^ 255 - 19) ∧ (modAdd a b).getLsbD 255 = false

/-- R74. -/
def Obligations.ModSubIsTheExactDifferenceReduced : Prop :=
  (∀ a b : Value, ((modSub a b).toNat : Int) = ((a.toNat : Int) - (b.toNat : Int)) % (2 ^ 255 - 19) ∧
    (modSub a b).getLsbD 255 = false) ∧
    (modSub 0 1).toNat = Config.P - 1

/-- R76: no masking of bit 255 of either operand, whatever the other operand is: a set bit counts 2^255, which is 19
mod P, as added, as taken from and as taken away. -/
def Obligations.Bit255IsNotMasked : Prop :=
  (∀ v x : Value, v.getLsbD 255 = true →
    2 ^ 255 ≤ v.toNat ∧
    (modAdd v x).toNat = (v.toNat - 2 ^ 255 + 19 + x.toNat) % Config.P ∧
    (modAdd x v).toNat = (x.toNat + (v.toNat - 2 ^ 255 + 19)) % Config.P ∧
    ((modSub v x).toNat : Int) = ((v.toNat : Int) - 2 ^ 255 + 19 - x.toNat) % (Config.P : Int) ∧
    ((modSub x v).toNat : Int) = ((x.toNat : Int) - (v.toNat - 2 ^ 255 + 19)) % (Config.P : Int)) ∧
    (modAdd (BitVec.ofNat 256 (2 ^ 255)) 0).toNat = 19 ∧ (modAdd 0 (BitVec.ofNat 256 (2 ^ 255))).toNat = 19 ∧
    (modSub (BitVec.ofNat 256 (2 ^ 255)) 0).toNat = 19 ∧
    (modSub 0 (BitVec.ofNat 256 (2 ^ 255))).toNat = Config.P - 19 ∧
    ∀ w : Words, (valueOf w).getLsbD 255 = (w[7]).getLsbD 31

/-- The spec's own inference R78 from R73 and R74: an operand counts as its residue, and the result is the same as for the
canonical operand. -/
def Obligations.NonCanonicalOperandsCountAsResidues : Prop :=
  ∀ a b : Value,
    modAdd a b = modAdd (BitVec.ofNat 256 (a.toNat % Config.P)) (BitVec.ofNat 256 (b.toNat % Config.P)) ∧
    modSub a b = modSub (BitVec.ofNat 256 (a.toNat % Config.P)) (BitVec.ofNat 256 (b.toNat % Config.P)) ∧
    a.toNat < 3 * Config.P

/-- The laws R89, which the spec infers from R73 and R74. -/
def Obligations.FieldLawsOfTheAdder : Prop :=
  ∀ a b c : Value,
    modAdd a b = modAdd b a ∧ modAdd (modAdd a b) c = modAdd a (modAdd b c) ∧
    modSub a b = modAdd a (modSub 0 b) ∧ modSub a a = 0 ∧
    modAdd (modSub a b) b = BitVec.ofNat 256 (a.toNat % Config.P) ∧
    modAdd a 0 = BitVec.ofNat 256 (a.toNat % Config.P) ∧
    modSub a 0 = BitVec.ofNat 256 (a.toNat % Config.P)

/-- The corner cases of R82 and R83. -/
def Obligations.CornerCasesOfAddAndSub : Prop :=
  (∀ a : Value, (modAdd a a).toNat = 2 * a.toNat % Config.P) ∧
    (∀ a b : Value, a.toNat + b.toNat = Config.P → modAdd a b = 0) ∧
    (∀ a b : Value, a.toNat < b.toNat → b.toNat - a.toNat < Config.P →
      (modSub a b).toNat = Config.P - (b.toNat - a.toNat)) ∧
    (∀ a : Value, modSub a a = 0) ∧
    (modAdd (BitVec.ofNat 256 (2 ^ 256 - 1)) (BitVec.ofNat 256 (2 ^ 256 - 1))).toNat = 74 ∧
    (modAdd (BitVec.ofNat 256 (2 ^ 255)) 0).toNat = 19 ∧
    modSub 0 (BitVec.ofNat 256 Config.P) = 0 ∧
    (modSub 0 (BitVec.ofNat 256 (2 ^ 256 - 1))).toNat = Config.P - 37 ∧
    (modSub (BitVec.ofNat 256 (2 ^ 256 - 1)) 0).toNat = 37 ∧
    modSub (BitVec.ofNat 256 (2 ^ 255)) 19 = 0

/-- Vectors A8, A13, S2, S11 and the rows DA+CB and E of the ladder step, 95_test_vectors.md sections 2 to 4. -/
def Obligations.VectorsOfTheSpec : Prop :=
  modAdd (BitVec.ofNat 256 (2 ^ 256 - 1)) (BitVec.ofNat 256 (2 ^ 256 - 1)) = 0x4A ∧
    wordsOf (modAdd 0x4C1CABD0A603A9103B35B326EC2466727C5FB124A4C19435DB3030586768DBE6 1) =
      #v[0x6768DBE7, 0xDB303058, 0xA4C19435, 0x7C5FB124, 0xEC246672, 0x3B35B326, 0xA603A910, 0x4C1CABD0] ∧
    wordsOf (modSub 0 1) =
      #v[0xFFFFFFEC, 0xFFFFFFFF, 0xFFFFFFFF, 0xFFFFFFFF, 0xFFFFFFFF, 0xFFFFFFFF, 0xFFFFFFFF, 0x7FFFFFFF] ∧
    wordsOf (modSub 0x4C1CABD0A603A9103B35B326EC2466727C5FB124A4C19435DB3030586768DBE6 1) =
      #v[0x6768DBE5, 0xDB303058, 0xA4C19435, 0x7C5FB124, 0xEC246672, 0x3B35B326, 0xA603A910, 0x4C1CABD0] ∧
    modAdd 0x4C1CABD0A603A9103B35B326EC2466727C5FB124A4C19435DB3030586768DBE7
        0x4C1CABD0A603A9103B35B326EC2466727C5FB124A4C19435DB3030586768DBE5 =
      0x183957A14C075220766B664DD848CCE4F8BF62494983286BB66060B0CED1B7DF ∧
    modSub 0x0197D4F4B83C85006D883203C4F50FA8FC987028A1C3220B8DA8CB2958B47F19
        0x512525B2202DE0BF80B16568146375DF0B19AB960EBCD13420E809C7BB110F48 =
      0x3072AF42980EA440ECD6CC9BB09199C9F17EC492930650D76CC0C1619DA36FBE

/-! ### The register window -/

/-- R45. -/
def Obligations.ReadReturnsTheSlotAndChangesNothing : Prop :=
  ∀ s : State,
    (∀ i : Fin 8, memRead (BitVec.ofNat 7 (0x00 + 4 * i)) s = s.a[i] ∧
      memRead (BitVec.ofNat 7 (0x20 + 4 * i)) s = s.b[i] ∧ memRead (BitVec.ofNat 7 (0x40 + 4 * i)) s = s.r[i]) ∧
    memRead 0x60 s = 0x00000000 ∧
    (memRead 0x64 s).toNat = s.status.busy.toNat + 2 * s.status.done.toNat + 4 * s.status.errIllegal.toNat +
      8 * s.status.errBusy.toNat ∧
    (∀ off : Offset, 0x68 ≤ off.toNat → memRead off s = 0x00000000) ∧
    ∀ (h : Config.BusErrHandling) (off : Offset), off.toNat % 4 = 0 →
      transact h (readOf off) s = .next { s with response := some (.rdOk (memRead off s)) }

/-- R46. -/
def Obligations.WriteActsOnTheSlot : Prop :=
  ∀ (s : State) (v : Word),
    (∀ i : Fin 8, memWrite (BitVec.ofNat 7 (0x00 + 4 * i)) v s = .next { s with a := s.a.set i v } ∧
      memWrite (BitVec.ofNat 7 (0x20 + 4 * i)) v s = .next { s with b := s.b.set i v } ∧
      memWrite (BitVec.ofNat 7 (0x40 + 4 * i)) v s = .next s) ∧
    memWrite 0x60 v s = executeCommand v s ∧
    memWrite 0x64 v s = .next { s with status := { s.status with
      errIllegal := if v.getLsbD 2 then false else s.status.errIllegal
      errBusy := if v.getLsbD 3 then false else s.status.errBusy } } ∧
    ∀ off : Offset, 0x68 ≤ off.toNat → memWrite off v s = .next s

/-- R43, R44 and R99: a misaligned transaction, or one of another width, gets an error response and changes no register.
The model's choice: a host fault stops the machine and an ignored response lets the host go on (log 4), the response is a
field of State and a refused write's holds no data (log 5), and a burst of any length is refused (log 12). -/
def Obligations.MisalignedOrNarrowIsBusError : Prop :=
  ∀ (s : State) (t : Transaction), t.off.toNat % 4 ≠ 0 ∨ t.size ≠ .bytes 4 →
    transact .hostFault t s = .fault .busError ∧
    transact .ignored t s = .next { s with response := some (errorResponse t) } ∧
    (t.req = .rd → errorResponse t = .rdError 0x00000000 ∧ readData t s = 0x00000000) ∧
    ∀ v : Word, t.req = .wr v → errorResponse t = .wrError

/-- R96: the three causes, what raises each, and what it records; a transaction that raises none sets no error flag.
The model's choice: an illegal or a dropped command is answered as a performed write (log 5, DEDUCED), and with an ignored
error response the host goes on (log 4). -/
def Obligations.ErrorsAreRecordedAsListed : Prop :=
  Cause.illegalCommand.code = 1 ∧ Cause.busyCommand.code = 2 ∧ Cause.busError.code = 3 ∧
    ∀ (s : State) (t : Transaction),
      (errorOf t s = some .illegalCommand ↔ ∃ w : Word, t = writeOf 0x60 w ∧ decode w = none) ∧
      (errorOf t s = some .busyCommand ↔
        s.status.busy = true ∧ (t = writeOf 0x60 0x00000001 ∨ t = writeOf 0x60 0x00000002)) ∧
      (errorOf t s = some .busError ↔ t.off.toNat % 4 ≠ 0 ∨ t.size ≠ .bytes 4) ∧
      (errorOf t s = some .illegalCommand → ∀ h : Config.BusErrHandling, transact h t s =
        .next { s with status := { s.status with errIllegal := true }, response := some .wrOk }) ∧
      (errorOf t s = some .busyCommand → ∀ h : Config.BusErrHandling, transact h t s =
        .next { s with status := { s.status with errBusy := true }, response := some .wrOk }) ∧
      (errorOf t s = some .busError →
        transact .ignored t s = .next { s with response := some (errorResponse t) }) ∧
      (errorOf t s = none → ∀ h : Config.BusErrHandling, ∃ s' : State, transact h t s = .next s' ∧
        (s'.status.errIllegal = true → s.status.errIllegal = true) ∧
        (s'.status.errBusy = true → s.status.errBusy = true))

/-- R101: BusError before all else, IllegalCommand before BusyCommand, at most one error a transaction. -/
def Obligations.ErrorsAreCheckedInOrder : Prop :=
  ∀ (h : Config.BusErrHandling) (s s' : State) (t : Transaction), transact h t s = .next s' →
    (t.off.toNat % 4 ≠ 0 ∨ t.size ≠ .bytes 4 → s'.status = s.status ∧ s'.latch = s.latch) ∧
    (∀ v : Word, t = writeOf 0x60 v → decode v = none →
      s'.status = { s.status with errIllegal := true } ∧ s'.latch = s.latch) ∧
    ¬ (s.status.errIllegal = false ∧ s'.status.errIllegal = true ∧
      s.status.errBusy = false ∧ s'.status.errBusy = true)

/-- R48. -/
def Obligations.RepeatedAccesses : Prop :=
  (∀ (h : Config.BusErrHandling) (off : Offset) (s s' : State), transact h (readOf off) s = .next s' →
    s' = { s with response := s'.response } ∧ transact h (readOf off) s' = .next s') ∧
    (∀ (i : Fin 8) (v : Word) (s s' : State),
      (memWrite (offA i) v s = .next s' → s' = { s with a := s.a.set i v } ∧ memWrite (offA i) v s' = .next s') ∧
      (memWrite (offB i) v s = .next s' → s' = { s with b := s.b.set i v } ∧ memWrite (offB i) v s' = .next s') ∧
      memWrite (offR i) v s = .next s) ∧
    (∃ (v : Word) (s s' : State), memWrite offCMD v s = .next s' ∧ memWrite offCMD v s' ≠ .next s') ∧
    (∀ (v : Word) (s s' : State), memWrite offSTATUS v s = .next s' → memWrite offSTATUS v s' = .next s') ∧
    ∀ (off : Offset) (v : Word) (s : State), 0x68 ≤ off.toNat → memWrite off v s = .next s

/-- R126, R51: an operand word is written at once, a read ordered after the write returns it, and no other slot reads
otherwise. -/
def Obligations.ReadAfterWrite : Prop :=
  ∀ (i : Fin 8) (v : Word) (s s' : State),
    (memWrite (offA i) v s = .next s' → memRead (offA i) s' = v ∧
      ∀ off : Offset, slotOf off ≠ .a i → memRead off s' = memRead off s) ∧
    (memWrite (offB i) v s = .next s' → memRead (offB i) s' = v ∧
      ∀ off : Offset, slotOf off ≠ .b i → memRead off s' = memRead off s)

/-- R104. -/
def Obligations.FlagsClearByWriteAndNeverBlock : Prop :=
  ∀ s : State,
    memWrite 0x64 0x4 s = .next { s with status := { s.status with errIllegal := false } } ∧
    memWrite 0x64 0x8 s = .next { s with status := { s.status with errBusy := false } } ∧
    memWrite 0x64 0xC s = .next { s with status := { s.status with errIllegal := false, errBusy := false } } ∧
    (s.status.errIllegal = true → raiseIllegalCommand s = s) ∧
    (s.status.errBusy = true → raiseBusyCommand s = s) ∧
    (s.status.busy = false → ∀ (op : Op) (ei eb : Bool),
      exec op.instr { s with status := { s.status with errIllegal := ei, errBusy := eb } } =
        .next (accept op { s with status := { s.status with errIllegal := ei, errBusy := eb } }))

/-- R39: BASE is a multiple of 0x80, an address of the window reaches it at the offset its low seven bits give, and
no other address does. -/
def Obligations.BaseSelectsTheWindow : Prop :=
  Config.base % 0x80 = 0 ∧
    (∀ off : Offset, select (Config.base + off.toNat) = some off ∧
      BitVec.ofNat 7 (Config.base + off.toNat) = off) ∧
    ∀ addr : Nat, addr < Config.base ∨ Config.base + 0x80 ≤ addr → select addr = none

/-! ### Commands -/

/-- R85, and NOP's completion. -/
def Obligations.NopHasNoEffect : Prop :=
  ∀ s : State, exec .nop s = .next s ∧ memWrite 0x60 0x00000000 s = .next s

/-- R84, and the completion of ADD and SUB as commands: written while BUSY = 0 they are accepted. -/
def Obligations.AcceptanceLatchesTheOperands : Prop :=
  ∀ s : State, s.status.busy = false →
    (exec .add s = .next { s with
      latch := some ⟨.add, valueOf s.a, valueOf s.b⟩
      status := { s.status with busy := true, done := false } } ∧
    memWrite 0x60 0x00000001 s = exec .add s) ∧
    (exec .sub s = .next { s with
      latch := some ⟨.sub, valueOf s.a, valueOf s.b⟩
      status := { s.status with busy := true, done := false } } ∧
    memWrite 0x60 0x00000002 s = exec .sub s)

/-- R98. -/
def Obligations.BusyCommandIsDropped : Prop :=
  ∀ s : State, s.status.busy = true →
    memWrite 0x60 0x00000001 s = .next { s with status := { s.status with errBusy := true } } ∧
    memWrite 0x60 0x00000002 s = .next { s with status := { s.status with errBusy := true } } ∧
    exec .add s = .next { s with status := { s.status with errBusy := true } } ∧
    exec .sub s = .next { s with status := { s.status with errBusy := true } }

/-- R97. -/
def Obligations.IllegalCommandSetsOnlyItsFlag : Prop :=
  ∀ (s : State) (w : Word), w ≠ 0x00000000 → w ≠ 0x00000001 → w ≠ 0x00000002 →
    memWrite 0x60 w s = .next { s with status := { s.status with errIllegal := true } }

/-- R87. -/
def Obligations.CommandsAreDispatched : Prop :=
  ∀ (s : State) (w : Word), executeCommand w s =
    if w = 0x00000000 then .next s
    else if w = 0x00000001 then .next (if s.status.busy then raiseBusyCommand s else accept .add s)
    else if w = 0x00000002 then .next (if s.status.busy then raiseBusyCommand s else accept .sub s)
    else .next (raiseIllegalCommand s)

/-- R82, R83, R86 together: a command accepted in `s`, completed by the ENGINE in any later state `u` that still holds it
in L, writes (A + B) mod P or (A - B) mod P of the operands at acceptance to R. -/
def Obligations.CommandComputesFromTheLatchedOperands : Prop :=
  ∀ (s t u : State), s.status.busy = false →
    (exec .add s = .next t → u.latch = t.latch →
      (valueOf (engineStep u).r).toNat = ((valueOf s.a).toNat + (valueOf s.b).toNat) % Config.P) ∧
    (exec .sub s = .next t → u.latch = t.latch →
      ((valueOf (engineStep u).r).toNat : Int) =
        (((valueOf s.a).toNat : Int) - ((valueOf s.b).toNat : Int)) % (Config.P : Int))

/-- The frame of the three commands: whatever they do at the write to CMD, A, B, R and the environment stay, every slot
but STATUS reads as before, ERR_ILLEGAL stays, NOP keeps STATUS and L, and a dropped command keeps L, BUSY and DONE
while an accepted one keeps ERR_BUSY. -/
def Obligations.CommandsFrame : Prop :=
  ∀ (i : Instr) (s t : State), exec i s = .next t →
    t.a = s.a ∧ t.b = s.b ∧ t.r = s.r ∧ t.resetAsserted = s.resetAsserted ∧ t.script = s.script ∧
    t.response = s.response ∧ t.turns = s.turns ∧ t.status.errIllegal = s.status.errIllegal ∧
    (∀ off : Offset, slotOf off ≠ .status → memRead off t = memRead off s) ∧
    (i = .nop → t.status = s.status ∧ t.latch = s.latch) ∧
    (s.status.busy = true → t.latch = s.latch ∧ t.status.busy = true ∧ t.status.done = s.status.done) ∧
    (s.status.busy = false → t.status.errBusy = s.status.errBusy)

/-- Every command answers a next state in every state. -/
def Obligations.EveryCommandCompletes : Prop :=
  ∀ (i : Instr) (s : State), ∃ t : State, exec i s = .next t

/-! ### Steps -/

/-- The step at the host's turn is the host's next statement: it hands a transaction to the block, whatever the
transaction (log 3), and waits where the script is empty (log 14). For the write of a word to CMD that is the decoded
command, or IllegalCommand, acknowledged on the bus (log 5); so is the very next step after `withFetchWord`. `u` is `s` at
the host's turn with that turn taken, or with none listed and nothing in flight (log 1, log 2). -/
def Obligations.StepRunsTheDecodedCommand : Prop :=
  (∀ s u : State, s.resetAsserted = false →
    (∃ turns : List Turn, s.turns = .host :: turns ∧ u = { s with turns := turns }) ∨
      (s.turns = [] ∧ s.latch = none ∧ u = s) →
    step s = hostStep Config.busErrHandling u ∧
    (s.script = [] → step s = .next u) ∧
    (∀ (t : Transaction) (rest : List Stmt), s.script = .txn t :: rest →
      step s = transact Config.busErrHandling t { u with script := rest }) ∧
    (∀ (w : Word) (i : Instr) (rest : List Stmt), decode w = some i → s.script = wr 0x60 w :: rest →
      step s = acknowledge (exec i { u with script := rest })) ∧
    (∀ (w : Word) (rest : List Stmt), decode w = none → s.script = wr 0x60 w :: rest →
      step s = acknowledge (.next (raiseIllegalCommand { u with script := rest })))) ∧
    (∀ (s : State) (w : Word) (i : Instr), decode w = some i →
      step (s.withFetchWord 32 w.toNat) = acknowledge (exec i { s with resetAsserted := false })) ∧
    ∀ t : State, acknowledge (.next t) = .next { t with response := some .wrOk }

/-- R86 at the ENGINE's turn: the completion, all of it and nothing else; no step where nothing is in flight. -/
def Obligations.EngineTurnCompletes : Prop :=
  ∀ (h : Config.BusErrHandling) (s : State) (rest : List Turn), s.turns = .engine :: rest →
    s.resetAsserted = false →
    (∀ l : Latch, s.latch = some l → stepUnder h s = .next { s with
      turns := rest
      r := wordsOf (match l.op with
        | .add => modAdd l.a l.b
        | .sub => modSub l.a l.b)
      latch := none
      status := { s.status with busy := false, done := true } }) ∧
    (s.latch = none → stepUnder h s = .next { s with turns := rest })

/-- R52, R102: both orders of a completion and the write of a command exist; with the completion first the command is
accepted and ERR_BUSY stays, with the command first it is dropped. Where no turn is listed the completion goes first. -/
def Obligations.CompletionAndCommandInEitherOrder : Prop :=
  ∀ (s : State) (l : Latch) (op : Op), s.latch = some l → s.status.busy = true → s.resetAsserted = false →
    s.script = [wr 0x60 (encode op.instr)] →
    (∀ turns : List Turn, turns = [.engine, .host] ∨ turns = [] →
      ∃ t : State, runSteps 2 { s with turns := turns } = .next t ∧ t.r = wordsOf l.result ∧
        t.latch = some ⟨op, valueOf s.a, valueOf s.b⟩ ∧ t.status.errBusy = s.status.errBusy) ∧
    (∃ t : State, runSteps 2 { s with turns := [.host, .engine] } = .next t ∧ t.r = wordsOf l.result ∧
      t.latch = none ∧ t.status.errBusy = true)

/-- `POLL off, mask, val` (R70): each iteration is one RD of `off`, and it falls through when the masked data is `val`. -/
def Obligations.PollRepeatsUntilTheValueIsRead : Prop :=
  ∀ (h : Config.BusErrHandling) (s : State) (off : Offset) (mask val : Word) (rest : List Stmt),
    s.script = .poll off mask val :: rest → off.toNat % 4 = 0 →
    (memRead off s &&& mask = val →
      hostStep h s = .next { s with script := rest, response := some (.rdOk (memRead off s)) }) ∧
    (memRead off s &&& mask ≠ val → hostStep h s = .next { s with response := some (.rdOk (memRead off s)) })

/-- `WRA V` and `WRB V` (R71), performed at eight turns of the host, leave V in A or B and change nothing else. -/
def Obligations.OperandLoadsWriteTheWholeValue : Prop :=
  ∀ (s : State) (v : Value) (rest : List Stmt) (turns : List Turn), s.resetAsserted = false →
    runSteps 8 { s with script := wra v ++ rest, turns := List.replicate 8 .host ++ turns } =
      .next { s with a := wordsOf v, script := rest, response := some .wrOk, turns := turns } ∧
    runSteps 8 { s with script := wrb v ++ rest, turns := List.replicate 8 .host ++ turns } =
      .next { s with b := wordsOf v, script := rest, response := some .wrOk, turns := turns }

/-! ### Reset -/

/-- R35 and R116: the reset state, and the same values from any state when reset is asserted. -/
def Obligations.ResetClearsTheBlock : Prop :=
  (State.reset.a = #v[0, 0, 0, 0, 0, 0, 0, 0] ∧ State.reset.b = #v[0, 0, 0, 0, 0, 0, 0, 0] ∧
    State.reset.r = #v[0, 0, 0, 0, 0, 0, 0, 0] ∧ State.reset.status = ⟨false, false, false, false⟩ ∧
    State.reset.latch = none) ∧
    ∀ (h : Config.BusErrHandling) (s : State) (rest : List Turn), s.turns = .assertReset :: rest →
      stepUnder h s = .next { s with
        a := #v[0, 0, 0, 0, 0, 0, 0, 0], b := #v[0, 0, 0, 0, 0, 0, 0, 0], r := #v[0, 0, 0, 0, 0, 0, 0, 0]
        status := ⟨false, false, false, false⟩, latch := none, resetAsserted := true, turns := rest }

/-- R117 with the model's choice of log 6: while reset is asserted a turn of either agent passes without a step, and the
host's script waits. -/
def Obligations.NoAgentMovesDuringReset : Prop :=
  ∀ (h : Config.BusErrHandling) (s : State), s.resetAsserted = true →
    (s.turns = [] → stepUnder h s = .next s) ∧
    ∀ (t : Turn) (rest : List Turn), t = .host ∨ t = .engine → s.turns = t :: rest →
      stepUnder h s = .next { s with turns := rest }

/-- R118 and R119: after reset, with nothing for the host to do, the block waits at every turn (log 14), and a command
issued at once computes on A = B = 0 and gives R = 0. The script and the turns are named here, not taken from State.reset. -/
def Obligations.CommandRightAfterReset : Prop :=
  (∀ (t : Turn) (turns : List Turn), t = .host ∨ t = .engine →
    step { State.reset with script := [], turns := t :: turns } =
      .next { State.reset with script := [], turns := turns }) ∧
    ∀ (i : Instr) (script : List Stmt) (turns : List Turn), i = .add ∨ i = .sub →
      ∃ t : State,
        runSteps 2 { State.reset with
          script := wr 0x60 (encode i) :: script, turns := .host :: .engine :: turns } = .next t ∧
        t.r = #v[0, 0, 0, 0, 0, 0, 0, 0] ∧ t.status = ⟨false, true, false, false⟩

/-! ### Whole-machine rules -/

/-- The invariant holds at reset, and reset is released there (the model's choice, log 6). -/
def Obligations.InvariantHoldsAtReset : Prop := State.reset.Inv ∧ State.reset.resetAsserted = false

/-- Every step keeps the invariant. -/
def Obligations.StepKeepsTheInvariant : Prop :=
  ∀ s t : State, s.Inv → step s = .next t → t.Inv

/-- R27, R36 and R37, which the spec infers from R23, R24, R26, R35, R80, R84 and R86, in every reachable state. -/
def Obligations.ReachableStatesAreConsistent : Prop :=
  ∀ s : State, Reachable s →
    (s.status.busy = true ↔ s.latch ≠ none) ∧
    (valueOf s.r).toNat < 2 ^ 255 - 19 ∧ (s.r[7]).getLsbD 31 = false ∧
    ((s.status.busy, s.status.done) = (false, false) ∨ (s.status.busy, s.status.done) = (true, false) ∨
      (s.status.busy, s.status.done) = (false, true))

/-- R23. -/
def Obligations.BusyChangesOnlyAsSaid : Prop :=
  ∀ s t : State, step s = .next t →
    (∀ op : Op, Accepts s op → t.status.busy = true) ∧
    (∀ l : Latch, eventOf s = .completion l → t.status.busy = false) ∧
    (eventOf s = .reset → t.status.busy = false) ∧
    ((∀ op : Op, ¬ Accepts s op) → (∀ l : Latch, eventOf s ≠ .completion l) → eventOf s ≠ .reset →
      t.status.busy = s.status.busy)

/-- R24. -/
def Obligations.DoneChangesOnlyAsSaid : Prop :=
  ∀ s t : State, step s = .next t →
    (∀ op : Op, Accepts s op → t.status.done = false) ∧
    (∀ l : Latch, eventOf s = .completion l → t.status.done = true ∧ t.r = wordsOf l.result) ∧
    (eventOf s = .reset → t.status.done = false) ∧
    ((∀ op : Op, ¬ Accepts s op) → (∀ l : Latch, eventOf s ≠ .completion l) → eventOf s ≠ .reset →
      t.status.done = s.status.done)

/-- R25. -/
def Obligations.ErrorFlagsAreSticky : Prop :=
  ∀ s t : State, step s = .next t →
    (s.status.errIllegal = false → t.status.errIllegal = true →
      ∃ w : Word, eventOf s = .transaction (writeOf offCMD w) ∧ decode w = none) ∧
    (s.status.errIllegal = true → t.status.errIllegal = false →
      eventOf s = .reset ∨ ∃ v : Word, eventOf s = .transaction (writeOf offSTATUS v) ∧ v.getLsbD 2 = true) ∧
    (s.status.errBusy = false → t.status.errBusy = true →
      s.status.busy = true ∧ ∃ op : Op, eventOf s = .transaction (writeOf offCMD (encode op.instr))) ∧
    (s.status.errBusy = true → t.status.errBusy = false →
      eventOf s = .reset ∨ ∃ v : Word, eventOf s = .transaction (writeOf offSTATUS v) ∧ v.getLsbD 3 = true)

/-- R26. -/
def Obligations.LatchChangesOnlyAsSaid : Prop :=
  (∀ s t : State, step s = .next t →
    (∀ op : Op, Accepts s op → t.latch = some ⟨op, valueOf s.a, valueOf s.b⟩) ∧
    (∀ l : Latch, eventOf s = .completion l → t.latch = none) ∧
    (eventOf s = .reset → t.latch = none) ∧
    ((∀ op : Op, ¬ Accepts s op) → (∀ l : Latch, eventOf s ≠ .completion l) → eventOf s ≠ .reset →
      t.latch = s.latch)) ∧
    ∀ (s : State) (l : Option Latch) (off : Offset), memRead off { s with latch := l } = memRead off s

/-- R18 and R19: A and B change only by a host write to one of their words, or by reset. -/
def Obligations.OperandsChangeOnlyByHostWrites : Prop :=
  ∀ s t : State, step s = .next t → eventOf s ≠ .reset →
    (t.a = s.a ∨ ∃ (i : Fin 8) (v : Word), eventOf s = .transaction (writeOf (offA i) v) ∧ t.a = s.a.set i v) ∧
    (t.b = s.b ∨ ∃ (i : Fin 8) (v : Word), eventOf s = .transaction (writeOf (offB i) v) ∧ t.b = s.b.set i v)

/-- R20: the host can read R and cannot write it; only completion and reset write it, all eight words at once. -/
def Obligations.ResultChangesOnlyByCompletion : Prop :=
  (∀ s t : State, step s = .next t →
    (∀ l : Latch, eventOf s = .completion l → t.r = wordsOf l.result) ∧
    (eventOf s = .reset → t.r = zeroWords) ∧
    ((∀ l : Latch, eventOf s ≠ .completion l) → eventOf s ≠ .reset → t.r = s.r)) ∧
    ∀ (h : Config.BusErrHandling) (i : Fin 8) (v : Word) (s : State),
      transact h (writeOf (offR i) v) s = .next { s with response := some .wrOk } ∧ memRead (offR i) s = s.r[i]

/-- R113: only reset, a transaction and a completion change the block's state. -/
def Obligations.NothingElseChangesTheBlock : Prop :=
  ∀ s t : State, step s = .next t → eventOf s = .idle ∨ eventOf s = .release →
    t.a = s.a ∧ t.b = s.b ∧ t.r = s.r ∧ t.status = s.status ∧ t.latch = s.latch

/-- The machine stops only where the host gets an error response and takes it as a fault (R99, log 4); no command
stops it (R94, R100, R103). -/
def Obligations.OnlyAnErrorResponseStops : Prop :=
  ∀ s : State, (∃ t : State, step s = .next t) ∨
    (step s = .fault .busError ∧ Config.busErrHandling = .hostFault ∧
      ∃ t : Transaction, eventOf s = .transaction t ∧ (t.off.toNat % 4 ≠ 0 ∨ t.size ≠ .bytes 4))

/-- A script of aligned 32-bit transactions runs any number of steps without a stop (R43, R44, R94). -/
def Obligations.WellFormedScriptsNeverStop : Prop :=
  ∀ (n : Nat) (s : State), scriptWf s.script = true →
    ∃ t : State, runSteps n s = .next t ∧ scriptWf t.script = true

/-- R127's completion under weak fairness, with the model's finite list of turns (log 1, log 2): a command in flight
completes, whatever the host does meanwhile, unless reset comes or the host stops. -/
def Obligations.CommandInFlightCompletes : Prop :=
  ∀ (s : State) (l : Latch), s.latch = some l → s.status.busy = true → s.resetAsserted = false →
    (∀ x ∈ s.turns, x ≠ Turn.assertReset) → ScriptGoesOn s →
    ∃ (k : Nat) (t : State), k ≤ s.turns.length + 1 ∧ runSteps k s = .next t ∧ t.r = wordsOf l.result ∧
      t.latch = none ∧ t.status.busy = false ∧ t.status.done = true

/-- The guarantee of R53, which the spec infers from R23, R26, R51, R52 and R86: while a command is in flight and no
later ADD or SUB is issued and no reset comes, a STATUS word with BUSY = 0 means that R reads as the command's result,
whatever else the host writes. -/
def Obligations.ResultGuarantee : Prop :=
  ∀ (n : Nat) (s t : State) (l : Latch), s.latch = some l → s.status.busy = true → s.resetAsserted = false →
    (∀ x ∈ s.turns, x ≠ Turn.assertReset) → (∀ x ∈ s.script, x.startsCommand = false) → runSteps n s = .next t →
    ((memRead 0x64 t).getLsbD 0 = true → t.r = s.r ∧ t.latch = some l) ∧
    ((memRead 0x64 t).getLsbD 0 = false →
      (∀ i : Fin 8, memRead (BitVec.ofNat 7 (0x40 + 4 * i)) t = wordOf l.result i) ∧
      (memRead 0x64 t).getLsbD 1 = true)

/-- R79 in the untimed model: two runs that differ only in the values of operands, of the latched copies and of R show the
same STATUS, the same command in flight, the same turns and the same transactions at every step, so long as the host
does not itself poll such a value (R128). -/
def Obligations.TimingIsIndependentOfOperands : Prop :=
  ∀ (n : Nat) (s t : State), s.publicView = t.publicView → (∀ x ∈ s.script, x.pollsPublic = true) →
    publicOutcome (runSteps n s) = publicOutcome (runSteps n t)
end

