-- ==== Sys2Proof/Laws/State.lean ====
section
/-! SUPPORT. One lemma for each field of each update of State and of Status. -/

namespace Sys2Proof.Machine

@[simp] theorem writeA_a (i : Fin 8) (v : Word) (s : State) : (writeA i v s).a = s.a.set i v := rfl
@[simp] theorem writeA_b (i : Fin 8) (v : Word) (s : State) : (writeA i v s).b = s.b := rfl
@[simp] theorem writeA_r (i : Fin 8) (v : Word) (s : State) : (writeA i v s).r = s.r := rfl
@[simp] theorem writeA_status (i : Fin 8) (v : Word) (s : State) : (writeA i v s).status = s.status := rfl
@[simp] theorem writeA_latch (i : Fin 8) (v : Word) (s : State) : (writeA i v s).latch = s.latch := rfl
@[simp] theorem writeA_resetAsserted (i : Fin 8) (v : Word) (s : State) : (writeA i v s).resetAsserted = s.resetAsserted := rfl
@[simp] theorem writeA_script (i : Fin 8) (v : Word) (s : State) : (writeA i v s).script = s.script := rfl
@[simp] theorem writeA_response (i : Fin 8) (v : Word) (s : State) : (writeA i v s).response = s.response := rfl
@[simp] theorem writeA_turns (i : Fin 8) (v : Word) (s : State) : (writeA i v s).turns = s.turns := rfl

@[simp] theorem writeB_a (i : Fin 8) (v : Word) (s : State) : (writeB i v s).a = s.a := rfl
@[simp] theorem writeB_b (i : Fin 8) (v : Word) (s : State) : (writeB i v s).b = s.b.set i v := rfl
@[simp] theorem writeB_r (i : Fin 8) (v : Word) (s : State) : (writeB i v s).r = s.r := rfl
@[simp] theorem writeB_status (i : Fin 8) (v : Word) (s : State) : (writeB i v s).status = s.status := rfl
@[simp] theorem writeB_latch (i : Fin 8) (v : Word) (s : State) : (writeB i v s).latch = s.latch := rfl
@[simp] theorem writeB_resetAsserted (i : Fin 8) (v : Word) (s : State) : (writeB i v s).resetAsserted = s.resetAsserted := rfl
@[simp] theorem writeB_script (i : Fin 8) (v : Word) (s : State) : (writeB i v s).script = s.script := rfl
@[simp] theorem writeB_response (i : Fin 8) (v : Word) (s : State) : (writeB i v s).response = s.response := rfl
@[simp] theorem writeB_turns (i : Fin 8) (v : Word) (s : State) : (writeB i v s).turns = s.turns := rfl

@[simp] theorem writeStatus_a (v : Word) (s : State) : (writeStatus v s).a = s.a := rfl
@[simp] theorem writeStatus_b (v : Word) (s : State) : (writeStatus v s).b = s.b := rfl
@[simp] theorem writeStatus_r (v : Word) (s : State) : (writeStatus v s).r = s.r := rfl
@[simp] theorem writeStatus_status (v : Word) (s : State) : (writeStatus v s).status = s.status.written v := rfl
@[simp] theorem writeStatus_latch (v : Word) (s : State) : (writeStatus v s).latch = s.latch := rfl
@[simp] theorem writeStatus_resetAsserted (v : Word) (s : State) : (writeStatus v s).resetAsserted = s.resetAsserted := rfl
@[simp] theorem writeStatus_script (v : Word) (s : State) : (writeStatus v s).script = s.script := rfl
@[simp] theorem writeStatus_response (v : Word) (s : State) : (writeStatus v s).response = s.response := rfl
@[simp] theorem writeStatus_turns (v : Word) (s : State) : (writeStatus v s).turns = s.turns := rfl

@[simp] theorem raiseIllegalCommand_a (s : State) : (raiseIllegalCommand s).a = s.a := rfl
@[simp] theorem raiseIllegalCommand_b (s : State) : (raiseIllegalCommand s).b = s.b := rfl
@[simp] theorem raiseIllegalCommand_r (s : State) : (raiseIllegalCommand s).r = s.r := rfl
@[simp] theorem raiseIllegalCommand_status (s : State) : (raiseIllegalCommand s).status = s.status.raisedIllegal := rfl
@[simp] theorem raiseIllegalCommand_latch (s : State) : (raiseIllegalCommand s).latch = s.latch := rfl
@[simp] theorem raiseIllegalCommand_resetAsserted (s : State) : (raiseIllegalCommand s).resetAsserted = s.resetAsserted := rfl
@[simp] theorem raiseIllegalCommand_script (s : State) : (raiseIllegalCommand s).script = s.script := rfl
@[simp] theorem raiseIllegalCommand_response (s : State) : (raiseIllegalCommand s).response = s.response := rfl
@[simp] theorem raiseIllegalCommand_turns (s : State) : (raiseIllegalCommand s).turns = s.turns := rfl

@[simp] theorem raiseBusyCommand_a (s : State) : (raiseBusyCommand s).a = s.a := rfl
@[simp] theorem raiseBusyCommand_b (s : State) : (raiseBusyCommand s).b = s.b := rfl
@[simp] theorem raiseBusyCommand_r (s : State) : (raiseBusyCommand s).r = s.r := rfl
@[simp] theorem raiseBusyCommand_status (s : State) : (raiseBusyCommand s).status = s.status.raisedBusy := rfl
@[simp] theorem raiseBusyCommand_latch (s : State) : (raiseBusyCommand s).latch = s.latch := rfl
@[simp] theorem raiseBusyCommand_resetAsserted (s : State) : (raiseBusyCommand s).resetAsserted = s.resetAsserted := rfl
@[simp] theorem raiseBusyCommand_script (s : State) : (raiseBusyCommand s).script = s.script := rfl
@[simp] theorem raiseBusyCommand_response (s : State) : (raiseBusyCommand s).response = s.response := rfl
@[simp] theorem raiseBusyCommand_turns (s : State) : (raiseBusyCommand s).turns = s.turns := rfl

@[simp] theorem accept_a (op : Op) (s : State) : (accept op s).a = s.a := rfl
@[simp] theorem accept_b (op : Op) (s : State) : (accept op s).b = s.b := rfl
@[simp] theorem accept_r (op : Op) (s : State) : (accept op s).r = s.r := rfl
@[simp] theorem accept_status (op : Op) (s : State) : (accept op s).status = s.status.accepted := rfl
@[simp] theorem accept_latch (op : Op) (s : State) : (accept op s).latch = some ⟨op, valueOf s.a, valueOf s.b⟩ := rfl
@[simp] theorem accept_resetAsserted (op : Op) (s : State) : (accept op s).resetAsserted = s.resetAsserted := rfl
@[simp] theorem accept_script (op : Op) (s : State) : (accept op s).script = s.script := rfl
@[simp] theorem accept_response (op : Op) (s : State) : (accept op s).response = s.response := rfl
@[simp] theorem accept_turns (op : Op) (s : State) : (accept op s).turns = s.turns := rfl

@[simp] theorem complete_a (l : Latch) (s : State) : (complete l s).a = s.a := rfl
@[simp] theorem complete_b (l : Latch) (s : State) : (complete l s).b = s.b := rfl
@[simp] theorem complete_r (l : Latch) (s : State) : (complete l s).r = wordsOf l.result := rfl
@[simp] theorem complete_status (l : Latch) (s : State) : (complete l s).status = s.status.completed := rfl
@[simp] theorem complete_latch (l : Latch) (s : State) : (complete l s).latch = none := rfl
@[simp] theorem complete_resetAsserted (l : Latch) (s : State) : (complete l s).resetAsserted = s.resetAsserted := rfl
@[simp] theorem complete_script (l : Latch) (s : State) : (complete l s).script = s.script := rfl
@[simp] theorem complete_response (l : Latch) (s : State) : (complete l s).response = s.response := rfl
@[simp] theorem complete_turns (l : Latch) (s : State) : (complete l s).turns = s.turns := rfl

@[simp] theorem resetBlock_a (s : State) : (resetBlock s).a = zeroWords := rfl
@[simp] theorem resetBlock_b (s : State) : (resetBlock s).b = zeroWords := rfl
@[simp] theorem resetBlock_r (s : State) : (resetBlock s).r = zeroWords := rfl
@[simp] theorem resetBlock_status (s : State) : (resetBlock s).status = Status.reset := rfl
@[simp] theorem resetBlock_latch (s : State) : (resetBlock s).latch = none := rfl
@[simp] theorem resetBlock_resetAsserted (s : State) : (resetBlock s).resetAsserted = s.resetAsserted := rfl
@[simp] theorem resetBlock_script (s : State) : (resetBlock s).script = s.script := rfl
@[simp] theorem resetBlock_response (s : State) : (resetBlock s).response = s.response := rfl
@[simp] theorem resetBlock_turns (s : State) : (resetBlock s).turns = s.turns := rfl

@[simp] theorem respond_a (p : Response) (s : State) : (respond p s).a = s.a := rfl
@[simp] theorem respond_b (p : Response) (s : State) : (respond p s).b = s.b := rfl
@[simp] theorem respond_r (p : Response) (s : State) : (respond p s).r = s.r := rfl
@[simp] theorem respond_status (p : Response) (s : State) : (respond p s).status = s.status := rfl
@[simp] theorem respond_latch (p : Response) (s : State) : (respond p s).latch = s.latch := rfl
@[simp] theorem respond_resetAsserted (p : Response) (s : State) : (respond p s).resetAsserted = s.resetAsserted := rfl
@[simp] theorem respond_script (p : Response) (s : State) : (respond p s).script = s.script := rfl
@[simp] theorem respond_response (p : Response) (s : State) : (respond p s).response = some p := rfl
@[simp] theorem respond_turns (p : Response) (s : State) : (respond p s).turns = s.turns := rfl

@[simp] theorem State.withFetchWord_a (s : State) (nbits w : Nat) : (s.withFetchWord nbits w).a = s.a := rfl
@[simp] theorem State.withFetchWord_b (s : State) (nbits w : Nat) : (s.withFetchWord nbits w).b = s.b := rfl
@[simp] theorem State.withFetchWord_r (s : State) (nbits w : Nat) : (s.withFetchWord nbits w).r = s.r := rfl
@[simp] theorem State.withFetchWord_status (s : State) (nbits w : Nat) : (s.withFetchWord nbits w).status = s.status := rfl
@[simp] theorem State.withFetchWord_latch (s : State) (nbits w : Nat) : (s.withFetchWord nbits w).latch = s.latch := rfl
@[simp] theorem State.withFetchWord_resetAsserted (s : State) (nbits w : Nat) : (s.withFetchWord nbits w).resetAsserted = false := rfl
@[simp] theorem State.withFetchWord_script (s : State) (nbits w : Nat) : (s.withFetchWord nbits w).script = wr offCMD (BitVec.ofNat 32 (w % 2 ^ nbits)) :: s.script := rfl
@[simp] theorem State.withFetchWord_response (s : State) (nbits w : Nat) : (s.withFetchWord nbits w).response = s.response := rfl
@[simp] theorem State.withFetchWord_turns (s : State) (nbits w : Nat) : (s.withFetchWord nbits w).turns = .host :: s.turns := rfl

@[simp] theorem Status.accepted_busy (s : Status) : (s.accepted).busy = true := rfl
@[simp] theorem Status.accepted_done (s : Status) : (s.accepted).done = false := rfl
@[simp] theorem Status.accepted_errIllegal (s : Status) : (s.accepted).errIllegal = s.errIllegal := rfl
@[simp] theorem Status.accepted_errBusy (s : Status) : (s.accepted).errBusy = s.errBusy := rfl

@[simp] theorem Status.completed_busy (s : Status) : (s.completed).busy = false := rfl
@[simp] theorem Status.completed_done (s : Status) : (s.completed).done = true := rfl
@[simp] theorem Status.completed_errIllegal (s : Status) : (s.completed).errIllegal = s.errIllegal := rfl
@[simp] theorem Status.completed_errBusy (s : Status) : (s.completed).errBusy = s.errBusy := rfl

@[simp] theorem Status.raisedIllegal_busy (s : Status) : (s.raisedIllegal).busy = s.busy := rfl
@[simp] theorem Status.raisedIllegal_done (s : Status) : (s.raisedIllegal).done = s.done := rfl
@[simp] theorem Status.raisedIllegal_errIllegal (s : Status) : (s.raisedIllegal).errIllegal = true := rfl
@[simp] theorem Status.raisedIllegal_errBusy (s : Status) : (s.raisedIllegal).errBusy = s.errBusy := rfl

@[simp] theorem Status.raisedBusy_busy (s : Status) : (s.raisedBusy).busy = s.busy := rfl
@[simp] theorem Status.raisedBusy_done (s : Status) : (s.raisedBusy).done = s.done := rfl
@[simp] theorem Status.raisedBusy_errIllegal (s : Status) : (s.raisedBusy).errIllegal = s.errIllegal := rfl
@[simp] theorem Status.raisedBusy_errBusy (s : Status) : (s.raisedBusy).errBusy = true := rfl

@[simp] theorem Status.written_busy (s : Status) (v : Word) : (s.written v).busy = s.busy := rfl
@[simp] theorem Status.written_done (s : Status) (v : Word) : (s.written v).done = s.done := rfl
@[simp] theorem Status.written_errIllegal (s : Status) (v : Word) : (s.written v).errIllegal = (s.errIllegal && !v[2]) := rfl
@[simp] theorem Status.written_errBusy (s : Status) (v : Word) : (s.written v).errBusy = (s.errBusy && !v[3]) := rfl

@[simp] theorem Status.reset_busy : Status.reset.busy = false := rfl
@[simp] theorem Status.reset_done : Status.reset.done = false := rfl
@[simp] theorem Status.reset_errIllegal : Status.reset.errIllegal = false := rfl
@[simp] theorem Status.reset_errBusy : Status.reset.errBusy = false := rfl

end Sys2Proof.Machine
end

