-- ==== Sys2Proof/Laws/Operands.lean ====
section
/-! SUPPORT. Slots, offsets, words and values. -/

namespace Sys2Proof.Machine

@[simp] theorem slotOf_offA (i : Fin 8) : slotOf (offA i) = .a i := by revert i; decide
@[simp] theorem slotOf_offB (i : Fin 8) : slotOf (offB i) = .b i := by revert i; decide
@[simp] theorem slotOf_offR (i : Fin 8) : slotOf (offR i) = .r i := by revert i; decide
@[simp] theorem slotOf_offCMD : slotOf offCMD = .cmd := by decide
@[simp] theorem slotOf_offSTATUS : slotOf offSTATUS = .status := by decide

@[simp] theorem aligned_offA (i : Fin 8) : aligned (offA i) = true := by revert i; decide
@[simp] theorem aligned_offB (i : Fin 8) : aligned (offB i) = true := by revert i; decide
@[simp] theorem aligned_offR (i : Fin 8) : aligned (offR i) = true := by revert i; decide
@[simp] theorem aligned_offCMD : aligned offCMD = true := by decide
@[simp] theorem aligned_offSTATUS : aligned offSTATUS = true := by decide

/-- An aligned offset is the offset of its slot: the decoding of R69 loses nothing. -/
theorem aligned_slot (off : Offset) (ha : aligned off = true) :
    (∀ i, slotOf off = .a i → off = offA i) ∧ (∀ i, slotOf off = .b i → off = offB i) ∧
      (∀ i, slotOf off = .r i → off = offR i) ∧ (slotOf off = .cmd → off = offCMD) ∧
      (slotOf off = .status → off = offSTATUS) := by
  revert off; decide

@[simp] theorem performable_readOf (off : Offset) : performable (readOf off) = aligned off := by
  simp [performable, readOf]

@[simp] theorem performable_writeOf (off : Offset) (v : Word) : performable (writeOf off v) = aligned off := by
  simp [performable, writeOf]

/-- `performable` in the words of R43 and R44. -/
theorem performable_eq_false (t : Transaction) :
    performable t = false ↔ t.off.toNat % 4 ≠ 0 ∨ t.size ≠ .bytes 4 := by
  have h : ∀ off : Offset, aligned off = false ↔ off.toNat % 4 ≠ 0 := by decide
  rw [← h]
  cases ha : aligned t.off <;> simp [performable, ha]

/-- A performable transaction is an `RD` or a `WR`. -/
theorem performable_cases (t : Transaction) (hp : performable t = true) :
    t = readOf t.off ∨ ∃ v, t = writeOf t.off v := by
  obtain ⟨off, size, req⟩ := t
  simp only [performable, Bool.and_eq_true, beq_iff_eq] at hp
  obtain ⟨rfl, -⟩ := hp
  cases req with
  | rd => exact .inl rfl
  | wr v => exact .inr ⟨v, rfl⟩

/-- One word down a concatenation. -/
theorem getLsbD_append_word {n : Nat} (x : BitVec n) (y : Word) (k r : Nat) :
    (x ++ y).getLsbD (32 * (k + 1) + r) = x.getLsbD (32 * k + r) := by
  rw [BitVec.getLsbD_append, if_neg (by omega)]
  congr 1; omega

/-- The lowest word of a concatenation. -/
theorem getLsbD_append_low {n : Nat} (x : BitVec n) (y : Word) (r : Nat) (hr : r < 32) :
    (x ++ y).getLsbD (32 * 0 + r) = y.getLsbD r := by
  rw [BitVec.getLsbD_append, if_pos (by omega)]
  congr 1; omega

/-- Bit 32q + r of a register is bit r of its word q. -/
theorem valueOf_getLsbD (w : Words) (q r : Nat) (hq : q < 8) (hr : r < 32) :
    (valueOf w).getLsbD (32 * q + r) = (w[q]).getLsbD r := by
  unfold valueOf
  rcases q with _ | _ | _ | _ | _ | _ | _ | _ | q
  case succ => omega
  all_goals simp only [getLsbD_append_word, getLsbD_append_low _ _ _ hr]
  all_goals congr 1
  simp

@[simp] theorem wordsOf_get (v : Value) (i : Fin 8) : (wordsOf v)[i] = wordOf v i := by
  fin_cases i <;> rfl

theorem wordOf_valueOf (w : Words) (i : Fin 8) : wordOf (valueOf w) i = w[i] := by
  apply BitVec.eq_of_getLsbD_eq
  intro j hj
  simp [wordOf, hj, valueOf_getLsbD w i.val j i.isLt hj]

@[simp] theorem wordsOf_valueOf (w : Words) : wordsOf (valueOf w) = w := by
  apply Vector.ext
  intro i hi
  have h := wordsOf_get (valueOf w) ⟨i, hi⟩
  rw [wordOf_valueOf] at h
  exact h

/-- A register holds any value without loss. -/
@[simp] theorem valueOf_wordsOf (v : Value) : valueOf (wordsOf v) = v := by
  apply BitVec.eq_of_getLsbD_eq
  intro j hj
  obtain ⟨q, r, hr, hq, rfl⟩ : ∃ q r, r < 32 ∧ q < 8 ∧ j = 32 * q + r :=
    ⟨j / 32, j % 32, by omega, by omega, by omega⟩
  rw [valueOf_getLsbD _ _ _ hq hr]
  have h := wordsOf_get v ⟨q, hq⟩
  simp only [Fin.getElem_fin] at h
  simp [h, wordOf, hr]

end Sys2Proof.Machine
end

