-- ==== Sys2Proof/Laws/Ops.lean ====
section
/-! SUPPORT. What each shared operation can do, said once: the arithmetic, the commands, the writes of the window and a
whole transaction. -/

namespace Sys2Proof.Machine

/-! ### Arithmetic -/

theorem P_pos : 0 < Config.P := by decide

theorem P_lt : Config.P < 2 ^ 255 := by decide

@[simp] theorem modAdd_toNat (a b : Value) : (modAdd a b).toNat = (a.toNat + b.toNat) % Config.P := by
  have h := Nat.mod_lt (a.toNat + b.toNat) P_pos
  have := P_lt
  simp only [modAdd, BitVec.toNat_ofNat]
  exact Nat.mod_eq_of_lt (by omega)

@[simp] theorem modSub_toNat (a b : Value) :
    ((modSub a b).toNat : Int) = ((a.toNat : Int) - (b.toNat : Int)) % (Config.P : Int) := by
  have hP : (0 : Int) < Config.P := by decide
  have h1 := Int.emod_nonneg ((a.toNat : Int) - (b.toNat : Int)) hP.ne'
  have h2 := Int.emod_lt_of_pos ((a.toNat : Int) - (b.toNat : Int)) hP
  have h3 : (Config.P : Int) < 2 ^ 255 := by decide
  rw [modSub, BitVec.toNat_ofInt]
  norm_num
  omega

/-- Every result is canonical (R80). -/
theorem result_lt (l : Latch) : l.result.toNat < Config.P := by
  have hP : (0 : Int) < Config.P := by decide
  unfold Latch.result
  cases l.op with
  | add => simpa using Nat.mod_lt _ P_pos
  | sub =>
    have h := modSub_toNat l.a l.b
    have := Int.emod_lt_of_pos ((l.a.toNat : Int) - (l.b.toNat : Int)) hP
    show (modSub l.a l.b).toNat < Config.P
    omega

/-! ### STATUS as a word -/

/-- The fields of the status word (R22). -/
theorem statusWord_bits (s : Status) :
    (statusWord s).getLsbD 0 = s.busy ∧ (statusWord s).getLsbD 1 = s.done ∧
      (statusWord s).getLsbD 2 = s.errIllegal ∧ (statusWord s).getLsbD 3 = s.errBusy := by
  obtain ⟨a, b, c, d⟩ := s
  revert a b c d; decide

/-! ### Commands -/

@[simp] theorem exec_nop (s : State) : exec .nop s = .next s := rfl

@[simp] theorem exec_op (op : Op) (s : State) : exec op.instr s = .next (start op s) := by cases op <;> rfl

/-- `start` is one of two effects. -/
theorem start_cases (op : Op) (s : State) :
    (s.status.busy = true ∧ start op s = raiseBusyCommand s) ∨ (s.status.busy = false ∧ start op s = accept op s) := by
  cases h : s.status.busy <;> simp [start, h]

@[simp] theorem decode_encode_op (op : Op) : decode (encode op.instr) = some op.instr := by cases op <;> decide

/-- A word with no bit of `rsv` set is its `opc`. -/
theorem word_of_opc (w : Word) (h : rsvField w = 0) : w = (opcField w).setWidth 32 := by
  apply BitVec.eq_of_getLsbD_eq
  intro j hj
  by_cases h4 : j < 4
  · simp [opcField, h4, hj]
  · have := congrArg (fun x => x.getLsbD (j - 4)) h
    simp only [rsvField, BitVec.getLsbD_extractLsb'] at this
    have e : 4 + (j - 4) = j := by omega
    have d : j - 4 < 28 := by omega
    simp only [e, d, decide_true, Bool.true_and] at this
    simp [opcField, this, h4]

/-- A word decodes to an operation only as its own encoding. -/
theorem eq_encode_of_decode (w : Word) (i : Instr) (h : decode w = some i) : w = encode i := by
  unfold decode at h
  split at h
  · next hr =>
    have e := word_of_opc w hr
    generalize opcField w = o at e h
    subst e
    cases i <;> revert o <;> decide
  · cases h

/-- What `ExecuteCommand` does with a word: one of R87's cases. -/
theorem executeCommand_cases (w : Word) (s : State) :
    (decode w = none ∧ executeCommand w s = .next (raiseIllegalCommand s)) ∨
    (w = encode .nop ∧ executeCommand w s = .next s) ∨
    (∃ op : Op, w = encode op.instr ∧ executeCommand w s = .next (start op s)) := by
  unfold executeCommand
  cases h : decode w with
  | none => simp
  | some i =>
    have e := eq_encode_of_decode w i h
    cases i with
    | nop => exact .inr (.inl ⟨e, rfl⟩)
    | add => exact .inr (.inr ⟨.add, e, rfl⟩)
    | sub => exact .inr (.inr ⟨.sub, e, rfl⟩)

/-! ### Writes and transactions -/

/-- A write to CMD is its command, dispatched (R46). -/
@[simp] theorem memWrite_offCMD (v : Word) (s : State) : memWrite offCMD v s = executeCommand v s := by
  simp only [memWrite, slotOf_offCMD]

/-- A performed write, acknowledged. -/
@[simp] theorem transact_writeOf (h : Config.BusErrHandling) (off : Offset) (ha : aligned off = true) (v : Word)
    (s : State) : transact h (writeOf off v) s = acknowledge (memWrite off v s) := by
  have hp : performable (writeOf off v) = true := by simp [ha]
  simp only [transact, hp, if_true]
  rfl

/-- Everything a performed write can do (R46, R87). -/
theorem memWrite_cases (off : Offset) (v : Word) (s : State) :
    (∃ i, slotOf off = .a i ∧ memWrite off v s = .next (writeA i v s)) ∨
    (∃ i, slotOf off = .b i ∧ memWrite off v s = .next (writeB i v s)) ∨
    (slotOf off = .cmd ∧ decode v = none ∧ memWrite off v s = .next (raiseIllegalCommand s)) ∨
    (∃ op : Op, slotOf off = .cmd ∧ v = encode op.instr ∧ memWrite off v s = .next (start op s)) ∨
    (slotOf off = .status ∧ memWrite off v s = .next (writeStatus v s)) ∨
    (memWrite off v s = .next s ∧
      ((∃ i, slotOf off = .r i) ∨ (slotOf off = .cmd ∧ v = encode .nop) ∨ slotOf off = .reserved)) := by
  unfold memWrite
  cases h : slotOf off with
  | a i => simp
  | b i => simp
  | r i => simp
  | status => simp
  | reserved => simp
  | cmd =>
    obtain ⟨hd, he⟩ | ⟨hw, he⟩ | ⟨op, hw, he⟩ := executeCommand_cases v s
    · exact .inr (.inr (.inl ⟨rfl, hd, he⟩))
    · exact .inr (.inr (.inr (.inr (.inr ⟨he, .inr (.inl ⟨rfl, hw⟩)⟩))))
    · exact .inr (.inr (.inr (.inl ⟨op, rfl, hw, he⟩)))

@[simp] theorem acknowledge_next (s : State) : acknowledge (.next s) = .next (respond .wrOk s) := rfl

/-- An acknowledged next state comes from a next state. -/
theorem acknowledge_eq_next {r : Result} {s : State} (h : acknowledge r = .next s) :
    ∃ u, r = .next u ∧ s = respond .wrOk u := by
  cases r with
  | next u => cases h; exact ⟨u, rfl, rfl⟩
  | fault f => cases h
  | refused q => cases h

@[simp] theorem transact_readOf (h : Config.BusErrHandling) (off : Offset) (ha : aligned off = true) (s : State) :
    transact h (readOf off) s = .next (respond (.rdOk (memRead off s)) s) := by
  have hp : performable (readOf off) = true := by simp [ha]
  simp only [transact, hp, if_true]
  rfl

/-- The next states of a transaction: an ignored error response, a read, or a performed write with one of the effects of
`memWrite_cases`. -/
theorem transact_next {h : Config.BusErrHandling} {t : Transaction} {s s' : State} (hn : transact h t s = .next s') :
    (performable t = false ∧ h = .ignored ∧ s' = respond (errorResponse t) s) ∨
    (performable t = true ∧ t = readOf t.off ∧ s' = respond (.rdOk (memRead t.off s)) s) ∨
    (performable t = true ∧ ∃ v u, t = writeOf t.off v ∧ memWrite t.off v s = .next u ∧ s' = respond .wrOk u) := by
  unfold transact at hn
  cases hp : performable t with
  | false =>
    cases h with
    | hostFault => simp [hp, raiseBusError] at hn
    | ignored => simpa [hp, raiseBusError, eq_comm] using hn
  | true =>
    obtain he | ⟨v, he⟩ := performable_cases t hp
    · have hq : t.req = .rd := by rw [he]; rfl
      simp only [hp, if_true, perform, hq] at hn
      cases hn
      exact .inr (.inl ⟨rfl, he, rfl⟩)
    · have hq : t.req = .wr v := by rw [he]; rfl
      simp only [hp, if_true, perform, hq] at hn
      obtain ⟨u, hm, rfl⟩ := acknowledge_eq_next hn
      exact .inr (.inr ⟨rfl, v, u, he, hm, rfl⟩)

/-- What a transaction does to the block: nothing, or one of the five effects of a performed write, each with the
transaction it needs. -/
theorem transact_effect {h : Config.BusErrHandling} {t : Transaction} {s s' : State} (hn : transact h t s = .next s') :
    ∃ p : Response,
      (s' = respond p s ∧ (∀ op : Op, t ≠ writeOf offCMD (encode op.instr)) ∧ ∀ i v, t ≠ writeOf (offA i) v ∧
        t ≠ writeOf (offB i) v) ∨
      (∃ i v, t = writeOf (offA i) v ∧ s' = respond p (writeA i v s)) ∨
      (∃ i v, t = writeOf (offB i) v ∧ s' = respond p (writeB i v s)) ∨
      (∃ v, t = writeOf offCMD v ∧ decode v = none ∧ s' = respond p (raiseIllegalCommand s)) ∨
      (∃ op : Op, t = writeOf offCMD (encode op.instr) ∧ s' = respond p (start op s)) ∨
      (∃ v, t = writeOf offSTATUS v ∧ s' = respond p (writeStatus v s)) := by
  rcases transact_next hn with ⟨hp, _, rfl⟩ | ⟨_, e, rfl⟩ | ⟨hp, v, u, e, hm, rfl⟩
  · refine ⟨_, .inl ⟨rfl, ?_, ?_⟩⟩
    · rintro op rfl; simp at hp
    · intro i v; constructor <;> (rintro rfl; simp at hp)
  · refine ⟨_, .inl ⟨rfl, ?_, ?_⟩⟩
    · rintro op rfl; cases e
    · intro i v; constructor <;> (rintro rfl; cases e)
  · have ha : aligned t.off = true := by rw [e] at hp; simpa using hp
    obtain ⟨eA, eB, _, eC, eS⟩ := aligned_slot t.off ha
    rcases memWrite_cases t.off v s with ⟨i, k, h⟩ | ⟨i, k, h⟩ | ⟨k, d, h⟩ | ⟨op, k, d, h⟩ | ⟨k, h⟩ | ⟨h, k⟩ <;>
      rw [h] at hm <;> cases hm
    · rw [eA i k] at e; exact ⟨_, .inr (.inl ⟨i, v, e, rfl⟩)⟩
    · rw [eB i k] at e; exact ⟨_, .inr (.inr (.inl ⟨i, v, e, rfl⟩))⟩
    · rw [eC k] at e; exact ⟨_, .inr (.inr (.inr (.inl ⟨v, e, d, rfl⟩)))⟩
    · rw [eC k, d] at e; exact ⟨_, .inr (.inr (.inr (.inr (.inl ⟨op, e, rfl⟩))))⟩
    · rw [eS k] at e; exact ⟨_, .inr (.inr (.inr (.inr (.inr ⟨v, e, rfl⟩))))⟩
    · refine ⟨_, .inl ⟨rfl, fun op hw => ?_, fun i w => ⟨fun hw => ?_, fun hw => ?_⟩⟩⟩ <;>
        rw [hw] at e k
      · cases e
        cases op <;> simp [writeOf, encode, Op.instr] at k
      · simp [writeOf] at k
      · simp [writeOf] at k

/-- A performed write always ends in a next state. -/
theorem memWrite_next (off : Offset) (v : Word) (s : State) : ∃ u, memWrite off v s = .next u := by
  rcases memWrite_cases off v s with ⟨_, _, h⟩ | ⟨_, _, h⟩ | ⟨_, _, h⟩ | ⟨_, _, _, h⟩ | ⟨_, h⟩ | ⟨h, _⟩ <;>
    exact ⟨_, h⟩

/-- A performed transaction always ends in a next state. -/
theorem transact_performable (h : Config.BusErrHandling) (t : Transaction) (s : State) (hp : performable t = true) :
    ∃ u, transact h t s = .next u := by
  simp only [transact, hp, if_true, perform]
  cases t.req with
  | rd => exact ⟨_, rfl⟩
  | wr v =>
    obtain ⟨u, hu⟩ := memWrite_next t.off v s
    exact ⟨respond .wrOk u, congrArg acknowledge hu⟩

end Sys2Proof.Machine
end

