-- ==== Sys2Proof/Laws/PerInstr.lean ====
section
/-! SUPPORT. What holds of every command as syntax, one lemma for each constructor. -/

namespace Sys2Proof.Laws.EncodingFields

/-- A command is well formed, its word has every reserved bit 0 and its operation code reads back (R60, R63 to R65). -/
def Statement (i : Instr) : Prop :=
  i.wf = true ∧ rsvField (encode i) = 0 ∧ opcodeOf (opcField (encode i)) = some i

theorem nop : Statement .nop := by unfold Statement; decide

theorem add : Statement .add := by unfold Statement; decide

theorem sub : Statement .sub := by unfold Statement; decide

end Sys2Proof.Laws.EncodingFields
end

