-- ==== Sys2Proof/Laws/Step.lean ====
section
/-! SUPPORT. What a step can do, said once for the five events, and the runs of many steps. -/

namespace Sys2Proof.Machine

/-- The state a step starts from: its turn is taken. -/
def turnTaken (s : State) : State := { s with turns := s.turns.tail }

@[simp] theorem turnTaken_a (s : State) : (turnTaken s).a = s.a := rfl
@[simp] theorem turnTaken_b (s : State) : (turnTaken s).b = s.b := rfl
@[simp] theorem turnTaken_r (s : State) : (turnTaken s).r = s.r := rfl
@[simp] theorem turnTaken_status (s : State) : (turnTaken s).status = s.status := rfl
@[simp] theorem turnTaken_latch (s : State) : (turnTaken s).latch = s.latch := rfl
@[simp] theorem turnTaken_resetAsserted (s : State) : (turnTaken s).resetAsserted = s.resetAsserted := rfl
@[simp] theorem turnTaken_script (s : State) : (turnTaken s).script = s.script := rfl
@[simp] theorem turnTaken_response (s : State) : (turnTaken s).response = s.response := rfl
@[simp] theorem turnTaken_turns (s : State) : (turnTaken s).turns = s.turns.tail := rfl

/-- A step is its turn, taken. -/
theorem stepUnder_eq (h : Config.BusErrHandling) (s : State) :
    stepUnder h s = takeTurn h (nextTurn s) (turnTaken s) := by
  obtain ⟨a, b, r, status, latch, ra, script, response, turns⟩ := s
  cases turns <;> rfl

/-- Everything a step can do. The transaction of a step is given to the block in the state where the host's script has
lost its first statement, or still has it: a POLL that goes on. -/
theorem stepUnder_event (h : Config.BusErrHandling) (s : State) :
    (eventOf s = .idle ∧ stepUnder h s = .next (turnTaken s)) ∨
    (eventOf s = .release ∧ stepUnder h s = .next { turnTaken s with resetAsserted := false }) ∨
    (eventOf s = .reset ∧ stepUnder h s = .next { resetBlock (turnTaken s) with resetAsserted := true }) ∨
    (∃ l, s.latch = some l ∧ s.resetAsserted = false ∧ eventOf s = .completion l ∧
      stepUnder h s = .next (complete l (turnTaken s))) ∨
    (∃ t script, s.resetAsserted = false ∧ eventOf s = .transaction t ∧
      (script = s.script ∨ script = s.script.tail) ∧
      stepUnder h s = transact h t { turnTaken s with script := script }) := by
  rw [stepUnder_eq]
  unfold eventOf
  cases nextTurn s with
  | assertReset => simp [takeTurn]
  | releaseReset => simp [takeTurn]
  | engine =>
    cases hr : s.resetAsserted <;> cases hl : s.latch <;> simp [takeTurn, engineStep, hr, hl]
  | host =>
    cases hr : s.resetAsserted with
    | true => simp [takeTurn, hr]
    | false =>
      cases hs : s.script with
      | nil => simp [takeTurn, hostStep, hr, hs]
      | cons x rest =>
        cases x with
        | txn t =>
          refine .inr (.inr (.inr (.inr ⟨t, rest, rfl, by simp, .inr rfl, ?_⟩)))
          simp [takeTurn, hostStep, hr, hs]
        | poll off mask val =>
          by_cases hm : readData (readOf off) (turnTaken s) &&& mask = val
          · refine .inr (.inr (.inr (.inr ⟨readOf off, rest, rfl, by simp, .inr rfl, ?_⟩)))
            simp [takeTurn, hostStep, hr, hs, hm]
          · refine .inr (.inr (.inr (.inr ⟨readOf off, s.script, rfl, by simp, .inl hs, ?_⟩)))
            have e : { turnTaken s with script := s.script } = turnTaken s := rfl
            rw [e]
            simp [takeTurn, hostStep, hr, hs, hm]

/-- The step at the host's turn gives the block the first statement's transaction. -/
theorem stepUnder_txn (h : Config.BusErrHandling) (s : State) (t : Transaction) (rest : List Stmt)
    (hn : nextTurn s = .host) (hr : s.resetAsserted = false) (hs : s.script = .txn t :: rest) :
    stepUnder h s = transact h t { turnTaken s with script := rest } := by
  simp [stepUnder_eq, hn, takeTurn, hr, hostStep, hs]

/-- The inversion of a step: if it answers a next state, one of these five cases holds. -/
theorem step_next {s t : State} (h : step s = .next t) :
    (eventOf s = .idle ∧ t = turnTaken s) ∨
    (eventOf s = .release ∧ t = { turnTaken s with resetAsserted := false }) ∨
    (eventOf s = .reset ∧ t = { resetBlock (turnTaken s) with resetAsserted := true }) ∨
    (∃ l, s.latch = some l ∧ s.resetAsserted = false ∧ eventOf s = .completion l ∧ t = complete l (turnTaken s)) ∨
    (∃ x script, s.resetAsserted = false ∧ eventOf s = .transaction x ∧
      (script = s.script ∨ script = s.script.tail) ∧
      transact Config.busErrHandling x { turnTaken s with script := script } = .next t) := by
  rcases stepUnder_event Config.busErrHandling s with
    ⟨e, k⟩ | ⟨e, k⟩ | ⟨e, k⟩ | ⟨l, a, b, e, k⟩ | ⟨x, sc, a, e, b, k⟩ <;> rw [step, k] at h
  · cases h; exact .inl ⟨e, rfl⟩
  · cases h; exact .inr (.inl ⟨e, rfl⟩)
  · cases h; exact .inr (.inr (.inl ⟨e, rfl⟩))
  · cases h; exact .inr (.inr (.inr (.inl ⟨l, a, b, e, rfl⟩)))
  · exact .inr (.inr (.inr (.inr ⟨x, sc, a, e, b, h⟩)))

/-- A step leaves the host's script or takes its first statement, and takes the first turn. -/
theorem step_script_turns {s t : State} (h : step s = .next t) :
    (t.script = s.script ∨ t.script = s.script.tail) ∧ t.turns = s.turns.tail := by
  rcases step_next h with ⟨_, rfl⟩ | ⟨_, rfl⟩ | ⟨_, rfl⟩ | ⟨l, _, _, _, rfl⟩ | ⟨x, sc, _, _, b, k⟩
  · exact ⟨.inl rfl, rfl⟩
  · exact ⟨.inl rfl, rfl⟩
  · exact ⟨.inl rfl, rfl⟩
  · exact ⟨.inl rfl, rfl⟩
  · obtain ⟨p, k⟩ := transact_effect k
    rcases k with ⟨rfl, _⟩ | ⟨i, v, _, rfl⟩ | ⟨i, v, _, rfl⟩ | ⟨v, _, _, rfl⟩ | ⟨op, _, rfl⟩ | ⟨v, _, rfl⟩
    · exact ⟨b, rfl⟩
    · exact ⟨b, rfl⟩
    · exact ⟨b, rfl⟩
    · exact ⟨b, rfl⟩
    · rcases start_cases op { turnTaken s with script := sc } with ⟨_, y⟩ | ⟨_, y⟩ <;> rw [y] <;> exact ⟨b, rfl⟩
    · exact ⟨b, rfl⟩

/-- The transaction of a step is that of the script's first statement. -/
theorem eventOf_transaction {s : State} {t : Transaction} (h : eventOf s = .transaction t) :
    ∃ x rest, s.script = x :: rest ∧ (x = .txn t ∨ ∃ off mask val, x = .poll off mask val ∧ t = readOf off) := by
  unfold eventOf at h
  cases hn : nextTurn s with
  | assertReset => simp [hn] at h
  | releaseReset => simp [hn] at h
  | engine => cases hr : s.resetAsserted <;> cases hl : s.latch <;> simp [hn, hr, hl] at h
  | host =>
    cases hr : s.resetAsserted with
    | true => simp [hn, hr] at h
    | false =>
      cases hs : s.script with
      | nil => simp [hn, hr, hs] at h
      | cons x rest =>
        cases x with
        | txn u => simp only [hn, hr, hs] at h; cases h; exact ⟨_, rest, rfl, .inl rfl⟩
        | poll off mask val =>
          simp only [hn, hr, hs] at h; cases h
          exact ⟨_, rest, rfl, .inr ⟨off, mask, val, rfl, rfl⟩⟩

/-- Reset is asserted only at its turn. -/
theorem eventOf_reset {s : State} (h : eventOf s = .reset) : .assertReset ∈ s.turns := by
  unfold eventOf at h
  cases ht : s.turns with
  | nil =>
    cases hl : s.latch <;> cases hr : s.resetAsserted <;> cases hs : s.script with
    | nil => simp [nextTurn, ht, defaultTurn, hl, hr, hs] at h
    | cons x rest => cases x <;> simp [nextTurn, ht, defaultTurn, hl, hr, hs] at h
  | cons t rest =>
    cases t with
    | assertReset => simp
    | releaseReset => simp [nextTurn, ht] at h
    | engine => cases hl : s.latch <;> cases hr : s.resetAsserted <;> simp [nextTurn, ht, hl, hr] at h
    | host =>
      cases hr : s.resetAsserted <;> cases hs : s.script with
      | nil => simp [nextTurn, ht, hr, hs] at h
      | cons x r => cases x <;> simp [nextTurn, ht, hr, hs] at h

@[simp] theorem runSteps_zero (s : State) : runSteps 0 s = .next s := rfl

theorem runSteps_succ (n : Nat) (s : State) :
    runSteps (n + 1) s = match step s with
      | .next t => runSteps n t
      | .fault f => .fault f
      | .refused q => .refused q := by
  have e : Host.Core.step Sys2Proof.core s = step s := rfl
  cases h : step s <;> simp [runSteps, Host.Core.run, e, h] <;> rfl

/-- What every step from `Inv` to `Inv` keeps, every run keeps. -/
theorem runSteps_invariant (Inv : State → Prop) (hstep : ∀ s t, Inv s → step s = .next t → Inv t) :
    ∀ (n : Nat) (s t : State), Inv s → runSteps n s = .next t → Inv t := by
  intro n
  induction n with
  | zero => intro s t hi h; cases h; exact hi
  | succ n ih =>
    intro s t hi h
    rw [runSteps_succ] at h
    cases hs : step s with
    | next u => rw [hs] at h; exact ih u t (hstep s u hi hs) h
    | fault f => rw [hs] at h; cases h
    | refused q => rw [hs] at h; cases h

end Sys2Proof.Machine
end

