-- ==== Sys2Proof/Laws/Public.lean ====
section
/-! SUPPORT. What one transaction shows outside the values of operands and result (R79). -/

namespace Sys2Proof.Machine

/-- Two states have the same public part when each of its fields is the same. -/
theorem publicView_eq (s t : State) : s.publicView = t.publicView ↔
    s.status = t.status ∧ s.latch.map Latch.op = t.latch.map Latch.op ∧ s.resetAsserted = t.resetAsserted ∧
      s.script.map Stmt.publicView = t.script.map Stmt.publicView ∧
      s.response.map Response.publicView = t.response.map Response.publicView ∧ s.turns = t.turns := by
  simp [State.publicView]

/-- A slot that holds no operand and no result reads the same. -/
theorem memRead_public (off : Offset) (s t : State) (hs : s.status = t.status) (h : (slotOf off).secret = false) :
    memRead off s = memRead off t := by
  unfold memRead
  cases hq : slotOf off <;> simp_all [Slot.secret]

/-- ADD and SUB show the same, whatever the operands. -/
theorem start_publicView (op : Op) (s t : State) (h : s.publicView = t.publicView) :
    (start op s).publicView = (start op t).publicView := by
  rw [publicView_eq] at *
  obtain ⟨h1, h2, h3, h4, h5, h6⟩ := h
  unfold start
  rw [h1]
  split <;> simp [*]

end Sys2Proof.Machine
end

