-- ==== Sys2Proof/Tests/Slice0.lean ====
section
/-! SUPPORT. Small tests, their expected results from 95_test_vectors.md and the rules' own examples, and for each
statement with hypotheses a witness that meets them. -/

namespace Sys2Proof.Tests

open Sys2Proof.Machine

/-! ### Well-formedness: an ill-formed term for each check -/

theorem test_wf_commands : Instr.wf .nop && Instr.wf .add && Instr.wf .sub = true := by decide
theorem test_wf_refuses_misaligned : (rd 0x42).wf = false := by decide
theorem test_wf_refuses_byte : (Stmt.txn ⟨0x60, .bytes 1, .wr 0x01⟩).wf = false := by decide
theorem test_wf_refuses_half_word : (Stmt.txn ⟨0x00, .bytes 2, .rd⟩).wf = false := by decide
theorem test_wf_refuses_burst : (Stmt.txn ⟨0x00, .burst 8 4, .rd⟩).wf = false := by decide
theorem test_wf_refuses_misaligned_poll : (Stmt.poll 0x65 1 0).wf = false := by decide
theorem test_wf_refuses_script : scriptWf [rd 0x40, rd 0x41] = false := by decide
theorem test_wf_accepts_script : scriptWf (wra 5 ++ wait ++ rdr) = true := by decide

/-! ### Decoding: words written out bit by bit from R60 and R63 to R66 -/

theorem test_decode_nop : decode 0b00000000000000000000000000000000 = some .nop := by decide
theorem test_decode_add : decode 0b00000000000000000000000000000001 = some .add := by decide
theorem test_decode_sub : decode 0b00000000000000000000000000000010 = some .sub := by decide
theorem test_decode_opc_3 : decode 0b00000000000000000000000000000011 = none := by decide
theorem test_decode_rsv_bit_4 : decode 0b00000000000000000000000000010001 = none := by decide
theorem test_decode_rsv_bit_31 : decode 0b10000000000000000000000000000010 = none := by decide
theorem test_decode_table_word : decodeTableWord 32 1 = some .add ∧ decodeTableWord 32 3 = none := by decide
theorem test_listing : listing 0x1 = "ADD" ∧ listing 0x8000000A = ".word 0x8000000A ; illegal" := by decide

/-! ### States -/

/-- The reset state with two operands. -/
def withOperands (a b : Value) : State := { State.reset with a := wordsOf a, b := wordsOf b }

/-- A state with SUB 5 - 7 in flight. -/
def inFlight : State :=
  { withOperands 5 7 with latch := some ⟨.sub, 5, 7⟩, status := ⟨true, false, false, false⟩ }

/-- STATUS of a next state, as the word the host reads. -/
def statusOf : Result → Word
  | .next s => memRead offSTATUS s
  | .fault _ => 0xFFFFFFFF
  | .refused _ => 0xFFFFFFFF

/-- R of a next state. -/
def resultOf : Result → Value
  | .next s => valueOf s.r
  | .fault _ => 0
  | .refused _ => 0

/-- The last response of a next state. -/
def responseOf : Result → Option Response
  | .next s => s.response
  | .fault _ => none
  | .refused _ => none

/-! ### Commands: the command table of 95_test_vectors.md section 5 -/

theorem test_add_from_reset : statusOf (step (State.reset.withFetchWord 32 1)) = 0x1 := by decide
theorem test_add_drops_when_busy : statusOf (step (inFlight.withFetchWord 32 1)) = 0x9 := by decide
theorem test_sub_after_done :
    statusOf (memWrite offCMD 2 { State.reset with status := ⟨false, true, false, false⟩ }) = 0x1 := by decide
theorem test_sub_completes : resultOf (runSteps 2 ((withOperands 5 7).withFetchWord 32 2)) =
    0x7FFFFFFFFFFFFFFFFFFFFFFFFFFFFFFFFFFFFFFFFFFFFFFFFFFFFFFFFFFFFFEB := by decide
theorem test_add_completes : resultOf (runSteps 2 ((withOperands 1 2).withFetchWord 32 1)) = 3 := by decide
theorem test_nop_while_busy : statusOf (step (inFlight.withFetchWord 32 0)) = 0x1 := by decide
theorem test_nop_keeps_status :
    statusOf (exec .nop { State.reset with status := ⟨false, true, false, false⟩ }) = 0x2 := by decide
theorem test_illegal_while_busy : statusOf (step (inFlight.withFetchWord 32 3)) = 0x5 := by decide
theorem test_flags_do_not_block :
    statusOf (memWrite offCMD 1 { State.reset with status := ⟨false, true, true, false⟩ }) = 0x5 := by decide

/-! ### Transactions: the bus table of 95_test_vectors.md section 5 -/

theorem test_misaligned_read :
    responseOf (transact .ignored ⟨0x42, .bytes 4, .rd⟩ State.reset) = some (.rdError 0) := by decide
theorem test_narrow_command_is_bus_error :
    statusOf (transact .ignored ⟨0x60, .bytes 1, .wr 0x01⟩ inFlight) = 0x1 := by decide
theorem test_status_write_all_ones :
    statusOf (memWrite 0x64 0xFFFFFFFF { State.reset with status := ⟨false, true, true, true⟩ }) = 0x2 := by decide
theorem test_status_write_4 :
    statusOf (memWrite 0x64 0x4 { State.reset with status := ⟨true, false, true, true⟩ }) = 0x9 := by decide
theorem test_result_write_ignored : resultOf (memWrite 0x40 0xFFFFFFFF inFlight) = 0 := by decide
theorem test_reset_aborts :
    statusOf (runSteps 3 { inFlight with turns := [.assertReset, .releaseReset, .engine] }) = 0x0 := by decide

/-- Both end states of the race of program P3's SUB (R52): dropped, or accepted. -/
theorem test_both_orders :
    statusOf (runSteps 2 { inFlight with script := [wr 0x60 2], turns := [.host, .engine] }) = 0xA ∧
      statusOf (runSteps 2 { inFlight with script := [wr 0x60 2], turns := [.engine, .host] }) = 0x1 := by decide

/-- A POLL of BUSY goes on while the command is in flight and falls through after it. -/
theorem test_poll_goes_on :
    (match runSteps 1 { inFlight with script := wait, turns := [.host] } with
      | .next s => s.script
      | _ => []) = wait ∧
    (match runSteps 2 { inFlight with script := wait } with
      | .next s => s.script
      | _ => wait) = [] := by decide

/-! ### Witnesses: states and operands that meet the hypotheses of the statements -/

theorem witness_AllOtherWordsAreIllegal :
    3 ≤ ((0x3 : Word).extractLsb' 0 4).toNat ∧ 3 ≤ ((0xF : Word).extractLsb' 0 4).toNat ∧
      (0x10 : Word).extractLsb' 4 28 ≠ 0 ∧ (0x80000000 : Word).extractLsb' 4 28 ≠ 0 ∧
      decode 0x3 = none ∧ decode 0xFFFFFFFF = none := by decide

theorem witness_SlotIsSelectedByBits6To2 :
    (0x00 : Offset).toNat / 4 = (0 : Fin 8) ∧ (0x1F : Offset).toNat / 4 = (7 : Fin 8) ∧
      (0x20 : Offset).toNat / 4 = 8 + (0 : Fin 8) ∧ (0x3F : Offset).toNat / 4 = 8 + (7 : Fin 8) ∧
      (0x40 : Offset).toNat / 4 = 16 + (0 : Fin 8) ∧ (0x5F : Offset).toNat / 4 = 16 + (7 : Fin 8) ∧
      (0x60 : Offset).toNat / 4 = 24 ∧ (0x67 : Offset).toNat / 4 = 25 ∧ 26 ≤ (0x68 : Offset).toNat / 4 := by decide

theorem witness_Bit255IsNotMasked :
    (BitVec.ofNat 256 (2 ^ 255) : Value).getLsbD 255 = true ∧
      (BitVec.ofNat 256 (2 ^ 256 - 1) : Value).getLsbD 255 = true := by decide

theorem witness_CornerCasesOfAddAndSub :
    (19 : Value).toNat + (BitVec.ofNat 256 (Config.P - 19) : Value).toNat = Config.P ∧
      (5 : Value).toNat < (7 : Value).toNat ∧ (7 : Value).toNat - (5 : Value).toNat < Config.P := by decide

theorem witness_ReadReturnsTheSlotAndChangesNothing :
    0x68 ≤ (0x68 : Offset).toNat ∧ 0x68 ≤ (0x7C : Offset).toNat ∧ (0x7C : Offset).toNat % 4 = 0 := by decide

theorem witness_WriteActsOnTheSlot : 0x68 ≤ (0x68 : Offset).toNat := by decide

theorem witness_MisalignedOrNarrowIsBusError :
    (0x42 : Offset).toNat % 4 ≠ 0 ∧ Size.bytes 1 ≠ .bytes 4 ∧ Size.burst 2 4 ≠ .bytes 4 ∧
      (⟨0x42, .bytes 4, .rd⟩ : Transaction).req = .rd ∧ (⟨0x60, .bytes 1, .wr 1⟩ : Transaction).req = .wr 1 := by decide

theorem witness_ErrorsAreRecordedAsListed :
    errorOf (writeOf 0x60 3) inFlight = some .illegalCommand ∧
      errorOf (writeOf 0x60 1) inFlight = some .busyCommand ∧
      errorOf ⟨0x60, .bytes 1, .wr 1⟩ inFlight = some .busError ∧ errorOf (writeOf 0x60 0) inFlight = none ∧
      errorOf (writeOf 0x60 1) State.reset = none := by decide

theorem witness_ErrorsAreCheckedInOrder :
    transact .ignored ⟨0x60, .bytes 1, .wr 1⟩ inFlight = .next (respond .wrError inFlight) ∧
      transact .hostFault (writeOf 0x60 3) inFlight = .next (respond .wrOk (raiseIllegalCommand inFlight)) ∧
      decode 3 = none := ⟨rfl, rfl, rfl⟩

theorem witness_RepeatedAccesses :
    transact .hostFault (readOf 0x64) inFlight = .next (respond (.rdOk 1) inFlight) ∧
      memWrite (offA 0) 9 inFlight = .next (writeA 0 9 inFlight) ∧
      memWrite (offB 7) 9 inFlight = .next (writeB 7 9 inFlight) ∧
      memWrite offSTATUS 4 inFlight = .next (writeStatus 4 inFlight) ∧ 0x68 ≤ (0x7F : Offset).toNat :=
  ⟨rfl, rfl, rfl, rfl, by decide⟩

theorem witness_ReadAfterWrite :
    memWrite (offA 7) 9 inFlight = .next (writeA 7 9 inFlight) ∧ slotOf (offA 6) ≠ .a 7 ∧
      memWrite (offB 0) 9 inFlight = .next (writeB 0 9 inFlight) ∧ slotOf (offA 0) ≠ .b 0 :=
  ⟨rfl, by decide, rfl, by decide⟩

theorem witness_FlagsClearByWriteAndNeverBlock :
    ({ State.reset with status := ⟨false, false, true, true⟩ } : State).status.errIllegal = true ∧
      ({ State.reset with status := ⟨false, false, true, true⟩ } : State).status.errBusy = true ∧
      State.reset.status.busy = false := ⟨rfl, rfl, rfl⟩

theorem witness_BaseSelectsTheWindow : Config.base + 0x80 ≤ Config.base + 0x80 := Nat.le_refl _

theorem witness_AcceptanceLatchesTheOperands : (withOperands 5 7).status.busy = false := rfl

theorem witness_BusyCommandIsDropped : inFlight.status.busy = true := rfl

theorem witness_IllegalCommandSetsOnlyItsFlag :
    (0x3 : Word) ≠ 0x0 ∧ (0x3 : Word) ≠ 0x1 ∧ (0x3 : Word) ≠ 0x2 := by decide

theorem witness_CommandComputesFromTheLatchedOperands :
    (withOperands 5 7).status.busy = false ∧
      exec .add (withOperands 5 7) = .next (accept .add (withOperands 5 7)) ∧
      exec .sub (withOperands 5 7) = .next (accept .sub (withOperands 5 7)) ∧
      (writeA 0 1 (accept .sub (withOperands 5 7))).latch = (accept .sub (withOperands 5 7)).latch :=
  ⟨rfl, rfl, rfl, rfl⟩

theorem witness_CommandsFrame :
    exec .nop inFlight = .next inFlight ∧ exec .add inFlight = .next (raiseBusyCommand inFlight) ∧
      exec .sub (withOperands 5 7) = .next (accept .sub (withOperands 5 7)) ∧ slotOf 0x60 ≠ .status :=
  ⟨rfl, rfl, rfl, by decide⟩

theorem witness_StepRunsTheDecodedCommand :
    let s : State := { State.reset with script := [wr 0x60 1], turns := [.host] }
    let refused : State := { State.reset with script := [.txn ⟨0x42, .bytes 4, .rd⟩] }
    s.resetAsserted = false ∧ s.turns = .host :: [] ∧ s.script = wr 0x60 1 :: [] ∧ decode 1 = some .add ∧
      ({ s with script := [wr 0x60 3] } : State).script = wr 0x60 3 :: [] ∧ decode 3 = none ∧
      refused.resetAsserted = false ∧ refused.turns = [] ∧ refused.latch = none ∧
      refused.script = .txn ⟨0x42, .bytes 4, .rd⟩ :: [] ∧ State.reset.script = [] := by decide

theorem witness_EngineTurnCompletes :
    ({ inFlight with turns := [.engine] } : State).turns = .engine :: [] ∧ inFlight.resetAsserted = false ∧
      inFlight.latch = some ⟨.sub, 5, 7⟩ ∧ State.reset.latch = none := by decide

theorem witness_CompletionAndCommandInEitherOrder :
    inFlight.latch = some ⟨.sub, 5, 7⟩ ∧ inFlight.status.busy = true ∧ inFlight.resetAsserted = false ∧
      ({ inFlight with script := [wr 0x60 2] } : State).script = [wr 0x60 (encode (Op.instr .sub))] := by decide

theorem witness_PollRepeatsUntilTheValueIsRead :
    ({ inFlight with script := wait } : State).script = .poll 0x64 1 0 :: [] ∧ (0x64 : Offset).toNat % 4 = 0 ∧
      memRead 0x64 State.reset &&& 1 = 0 ∧ memRead 0x64 inFlight &&& 1 ≠ 0 := by decide

theorem witness_OperandLoadsWriteTheWholeValue : inFlight.resetAsserted = false := rfl

theorem witness_ResetClearsTheBlock :
    ({ inFlight with turns := [.assertReset] } : State).turns = .assertReset :: [] := rfl

theorem witness_NoAgentMovesDuringReset :
    ({ State.reset with resetAsserted := true } : State).resetAsserted = true ∧ State.reset.turns = [] ∧
      ({ State.reset with turns := [.host] } : State).turns = .host :: [] := ⟨rfl, rfl, rfl⟩

theorem witness_CommandRightAfterReset : (Instr.add = .add ∨ Instr.add = .sub) ∧ (Turn.engine = .host ∨ Turn.engine = .engine) := by decide

theorem witness_StepKeepsTheInvariant :
    inFlight.Inv ∧ step inFlight = .next (complete ⟨.sub, 5, 7⟩ inFlight) := ⟨by decide, rfl⟩

theorem witness_ReachableStatesAreConsistent :
    Reachable (accept .add { State.reset with response := some .wrOk }) :=
  .step { State.reset with script := [wr 0x60 1], turns := [.host] } _ (.outside State.reset _ _ .reset) rfl

/-- The four kinds of step the rules on BUSY, DONE, L, A, B and R tell apart. -/
theorem witness_steps :
    (Accepts { State.reset with script := [wr 0x60 1] } .add ∧
      step { State.reset with script := [wr 0x60 1] } = .next (respond .wrOk (accept .add State.reset))) ∧
    (eventOf inFlight = .completion ⟨.sub, 5, 7⟩ ∧ step inFlight = .next (complete ⟨.sub, 5, 7⟩ inFlight)) ∧
    (eventOf { inFlight with turns := [.assertReset] } = .reset ∧
      step { inFlight with turns := [.assertReset] } = .next { resetBlock inFlight with resetAsserted := true }) ∧
    (eventOf { inFlight with turns := [.host], script := [wr 0x20 1] } = .transaction (writeOf (offB 0) 1) ∧
      step { inFlight with turns := [.host], script := [wr 0x20 1] } =
        .next (respond .wrOk (writeB 0 1 inFlight))) :=
  ⟨⟨⟨rfl, rfl⟩, rfl⟩, ⟨rfl, rfl⟩, ⟨rfl, rfl⟩, rfl, rfl⟩

theorem witness_ErrorFlagsAreSticky :
    (step { State.reset with script := [wr 0x60 3] } = .next (respond .wrOk (raiseIllegalCommand State.reset)) ∧
      State.reset.status.errIllegal = false ∧ (raiseIllegalCommand State.reset).status.errIllegal = true) ∧
    (step { inFlight with script := [wr 0x60 1], turns := [.host] } =
        .next (respond .wrOk (raiseBusyCommand inFlight)) ∧
      inFlight.status.errBusy = false ∧ (raiseBusyCommand inFlight).status.errBusy = true) ∧
    (step { raiseIllegalCommand (raiseBusyCommand State.reset) with script := clr } =
        .next (respond .wrOk (writeStatus 0xC (raiseIllegalCommand (raiseBusyCommand State.reset)))) ∧
      (writeStatus 0xC (raiseIllegalCommand (raiseBusyCommand State.reset))).status = Status.reset) :=
  ⟨⟨rfl, rfl, rfl⟩, ⟨rfl, rfl, rfl⟩, rfl, rfl⟩

theorem witness_NothingElseChangesTheBlock :
    (eventOf State.reset = .idle ∧ step State.reset = .next State.reset) ∧
      (eventOf { State.reset with turns := [.releaseReset] } = .release ∧
        step { State.reset with turns := [.releaseReset] } = .next State.reset) := ⟨⟨rfl, rfl⟩, rfl, rfl⟩

theorem witness_WellFormedScriptsNeverStop : scriptWf (wra 5 ++ rdr) = true := by decide

theorem witness_CommandInFlightCompletes :
    inFlight.latch = some ⟨.sub, 5, 7⟩ ∧ inFlight.status.busy = true ∧ inFlight.resetAsserted = false ∧
      (∀ x ∈ ({ inFlight with turns := [.host, .releaseReset] } : State).turns, x ≠ Turn.assertReset) ∧
      ScriptGoesOn { inFlight with script := wra 5, turns := [.host, .releaseReset] } :=
  ⟨rfl, rfl, rfl, by decide, .inr (by decide)⟩

theorem witness_ResultGuarantee :
    (∀ x ∈ ({ inFlight with script := [wr 0x00 9, wr 0x60 3] } : State).script, x.startsCommand = false) ∧
      runSteps 1 { inFlight with script := [wr 0x00 9], turns := [.host] } =
        .next (respond .wrOk (writeA 0 9 inFlight)) ∧
      (memRead 0x64 (respond .wrOk (writeA 0 9 inFlight))).getLsbD 0 = true ∧
      runSteps 1 inFlight = .next (complete ⟨.sub, 5, 7⟩ inFlight) ∧
      (memRead 0x64 (complete ⟨.sub, 5, 7⟩ inFlight)).getLsbD 0 = false :=
  ⟨by decide, rfl, by decide, rfl, by decide⟩

theorem witness_TimingIsIndependentOfOperands :
    State.publicView { inFlight with script := wra 5 ++ wait } =
      State.publicView { inFlight with a := wordsOf 3, latch := some ⟨.sub, 0, 9⟩, script := wra 6 ++ wait } ∧
    ∀ x ∈ wra 5 ++ wait, x.pollsPublic = true := by decide

end Sys2Proof.Tests
end

section
/-! PROOFS. The value of a register (R12): its words as the digits of a number in base 2^32. -/

namespace Sys2Proof.Machine

/-- One word below a bit vector: the Horner step of a number in base 2^32. -/
theorem toNat_append_word {n : Nat} (x : BitVec n) (y : Word) :
    (x ++ y).toNat = 2 ^ 32 * x.toNat + y.toNat := by
  rw [BitVec.toNat_append, ← Nat.shiftLeft_add_eq_or_of_lt y.isLt, Nat.shiftLeft_eq, Nat.mul_comm]

/-- A register's value as the weighted sum of its words (R12). -/
theorem valueOf_toNat (w : Words) : (valueOf w).toNat = ∑ i : Fin 8, (w[i]).toNat * 2 ^ (32 * i.val) := by
  simp only [valueOf, toNat_append_word, Fin.sum_univ_eight, Fin.getElem_fin, Fin.coe_ofNat_eq_mod, Nat.reduceMod]
  ring

/-- Settles O7: the concatenation is the definition, and the sum is that concatenation read word by word. -/
theorem registerValueIsTheWeightedSum : Obligations.RegisterValueIsTheWeightedSum :=
  fun w => ⟨rfl, valueOf_toNat w⟩

end Sys2Proof.Machine
end

section
/-! PROOFS. The step at the host's turn (R15, R51), and the write of a command word to CMD (R21, R87, R97). -/

namespace Sys2Proof.Machine

/-- A word that decodes is run as its command (R87). -/
theorem executeCommand_of_decode_some {w : Word} {i : Instr} (hd : decode w = some i) (s : State) :
    executeCommand w s = exec i s := by
  simp only [executeCommand, hd]

/-- An illegal word raises IllegalCommand (R87, R97). -/
theorem executeCommand_of_decode_none {w : Word} (hd : decode w = none) (s : State) :
    executeCommand w s = .next (raiseIllegalCommand s) := by
  simp only [executeCommand, hd]

/-- The host has the turn, listed or by default, exactly in these two cases (R52, R127). -/
theorem nextTurn_eq_host_iff (s : State) :
    nextTurn s = .host ↔ (∃ turns, s.turns = .host :: turns) ∨ (s.turns = [] ∧ s.latch = none) := by
  unfold nextTurn
  cases ht : s.turns with
  | nil => cases hl : s.latch <;> simp [defaultTurn, hl]
  | cons t rest => simp

/-- The step at the host's turn is the host's step, the turn taken. -/
theorem stepUnder_host (h : Config.BusErrHandling) (s : State) (hn : nextTurn s = .host)
    (hr : s.resetAsserted = false) : stepUnder h s = hostStep h (turnTaken s) := by
  simp [stepUnder_eq, hn, takeTurn, hr]

/-- With an empty script the host waits (log 14). -/
theorem hostStep_of_script_nil (h : Config.BusErrHandling) (s : State) (hs : s.script = []) :
    hostStep h s = .next s := by
  simp only [hostStep, hs]

/-- The step at the host's turn whose statement writes a word to CMD: `ExecuteCommand`, acknowledged on the bus. -/
theorem stepUnder_wr_offCMD (h : Config.BusErrHandling) (s : State) (w : Word) (rest : List Stmt)
    (hn : nextTurn s = .host) (hr : s.resetAsserted = false) (hs : s.script = wr offCMD w :: rest) :
    stepUnder h s = acknowledge (executeCommand w { turnTaken s with script := rest }) := by
  rw [stepUnder_txn h s (writeOf offCMD w) rest hn hr hs, transact_writeOf h offCMD aligned_offCMD, memWrite_offCMD]

/-- The step after `withFetchWord` of a command word is `ExecuteCommand` of that word (R87). -/
theorem stepUnder_withFetchWord (h : Config.BusErrHandling) (s : State) (w : Word) :
    stepUnder h (s.withFetchWord 32 w.toNat) =
      acknowledge (executeCommand w { s with resetAsserted := false }) := by
  have hs : (s.withFetchWord 32 w.toNat).script = wr offCMD w :: s.script := by
    rw [State.withFetchWord_script, Nat.mod_eq_of_lt w.isLt, BitVec.ofNat_toNat, BitVec.setWidth_eq]
  exact stepUnder_wr_offCMD h _ w s.script rfl rfl hs

/-- A state with the host's turn removed, listed or by default, is the state a step of the host starts from. -/
theorem nextTurn_host_and_eq_turnTaken {s u : State}
    (hu : (∃ turns, s.turns = .host :: turns ∧ u = { s with turns := turns }) ∨
      (s.turns = [] ∧ s.latch = none ∧ u = s)) : nextTurn s = .host ∧ u = turnTaken s := by
  rcases hu with ⟨turns, ht, rfl⟩ | ⟨ht, hl, rfl⟩
  · exact ⟨(nextTurn_eq_host_iff s).2 (.inl ⟨turns, ht⟩), by simp [turnTaken, ht]⟩
  · refine ⟨(nextTurn_eq_host_iff u).2 (.inr ⟨ht, hl⟩), ?_⟩
    rw [turnTaken, ht, List.tail_nil, ← ht]

/-- Settles O33: the host's turn is the host's step, a transaction is handed to the block, and the write to CMD is
`ExecuteCommand` of its word. -/
theorem stepRunsTheDecodedCommand : Obligations.StepRunsTheDecodedCommand := by
  refine ⟨fun s u hr hu => ?_, fun s w i hd => ?_, fun _ => rfl⟩
  · obtain ⟨hn, rfl⟩ := nextTurn_host_and_eq_turnTaken hu
    have hstep : step s = hostStep Config.busErrHandling (turnTaken s) := stepUnder_host _ s hn hr
    refine ⟨hstep, fun hs => ?_, fun t rest hs => ?_, fun w i rest hd hs => ?_, fun w rest hd hs => ?_⟩
    · rw [hstep, hostStep_of_script_nil _ (turnTaken s) hs]
    · exact stepUnder_txn _ s t rest hn hr hs
    · rw [step, stepUnder_wr_offCMD _ s w rest hn hr hs, executeCommand_of_decode_some hd]
    · rw [step, stepUnder_wr_offCMD _ s w rest hn hr hs, executeCommand_of_decode_none hd]
  · rw [step, stepUnder_withFetchWord, executeCommand_of_decode_some hd]

end Sys2Proof.Machine
end

section
/-! PROOFS. What a step does to BUSY, DONE, L, R and the reset input, one lemma for each event (R23, R24, R26). -/

namespace Sys2Proof.Machine

/-- While BUSY = 1 ADD and SUB are dropped (R98). -/
theorem start_of_busy (op : Op) {s : State} (hb : s.status.busy = true) : start op s = raiseBusyCommand s := by
  simp [start, hb]

/-- While BUSY = 0 ADD and SUB are accepted (R84). -/
theorem start_of_not_busy (op : Op) {s : State} (hb : s.status.busy = false) : start op s = accept op s := by
  simp [start, hb]

/-- ADD and SUB, accepted or dropped, leave R. -/
@[simp] theorem start_r (op : Op) (s : State) : (start op s).r = s.r := by
  rcases start_cases op s with ⟨_, e⟩ | ⟨_, e⟩ <;> simp [e]

/-- ADD and SUB, accepted or dropped, leave the reset input. -/
@[simp] theorem start_resetAsserted (op : Op) (s : State) : (start op s).resetAsserted = s.resetAsserted := by
  rcases start_cases op s with ⟨_, e⟩ | ⟨_, e⟩ <;> simp [e]

/-- No transaction moves the reset input or writes R. -/
theorem transact_frame {h : Config.BusErrHandling} {x : Transaction} {s s' : State} (hn : transact h x s = .next s') :
    s'.r = s.r ∧ s'.resetAsserted = s.resetAsserted := by
  obtain ⟨p, ⟨rfl, _⟩ | ⟨i, v, _, rfl⟩ | ⟨i, v, _, rfl⟩ | ⟨v, _, _, rfl⟩ | ⟨op, _, rfl⟩ | ⟨v, _, rfl⟩⟩ :=
    transact_effect hn <;> simp

/-- A transaction that is not accepted as a command leaves BUSY, DONE and L. -/
theorem transact_keeps {h : Config.BusErrHandling} {x : Transaction} {s s' : State} (hn : transact h x s = .next s')
    (hb : ∀ op : Op, x = writeOf offCMD (encode op.instr) → s.status.busy = true) :
    s'.status.busy = s.status.busy ∧ s'.status.done = s.status.done ∧ s'.latch = s.latch := by
  obtain ⟨p, ⟨rfl, _⟩ | ⟨i, v, _, rfl⟩ | ⟨i, v, _, rfl⟩ | ⟨v, _, _, rfl⟩ | ⟨op, e, rfl⟩ | ⟨v, _, rfl⟩⟩ :=
    transact_effect hn
  on_goal 5 => rw [start_of_busy op (hb op e)]
  all_goals simp

/-- The step of a transaction hands it to the block, outside reset. -/
theorem step_of_transaction {s t : State} {x : Transaction} (h : step s = .next t) (he : eventOf s = .transaction x) :
    s.resetAsserted = false ∧
      ∃ script, transact Config.busErrHandling x { turnTaken s with script := script } = .next t := by
  rcases step_next h with ⟨e, _⟩ | ⟨e, _⟩ | ⟨e, _⟩ | ⟨_, _, _, e, _⟩ | ⟨y, script, hr, e, _, ht⟩ <;>
    rw [he] at e <;> cases e
  exact ⟨hr, script, ht⟩

/-- The step of a completion completes the command in flight, outside reset (R86). -/
theorem step_of_completion {s t : State} {l : Latch} (h : step s = .next t) (he : eventOf s = .completion l) :
    s.resetAsserted = false ∧ s.latch = some l ∧ t = complete l (turnTaken s) := by
  rcases step_next h with ⟨e, _⟩ | ⟨e, _⟩ | ⟨e, _⟩ | ⟨l', hl, hr, e, ht⟩ | ⟨_, _, _, e, _⟩ <;>
    rw [he] at e <;> cases e
  exact ⟨hr, hl, ht⟩

/-- The step of an assertion of reset (R116). -/
theorem step_of_reset {s t : State} (h : step s = .next t) (he : eventOf s = .reset) :
    t = { resetBlock (turnTaken s) with resetAsserted := true } := by
  rcases step_next h with ⟨e, _⟩ | ⟨e, _⟩ | ⟨e, ht⟩ | ⟨_, _, _, e, _⟩ | ⟨_, _, _, e, _⟩ <;>
    rw [he] at e <;> cases e
  exact ht

/-- The step of an acceptance, outside reset (R84). -/
theorem step_of_accepts {s t : State} {op : Op} (h : step s = .next t) (ha : Accepts s op) :
    s.resetAsserted = false ∧
      ∃ script, t = respond .wrOk (accept op { turnTaken s with script := script }) := by
  obtain ⟨he, hb⟩ := ha
  obtain ⟨hr, script, ht⟩ := step_of_transaction h he
  refine ⟨hr, script, ?_⟩
  rw [transact_writeOf _ _ aligned_offCMD, memWrite_offCMD, executeCommand_of_decode_some (decode_encode_op op),
    exec_op, start_of_not_busy op (by exact hb), acknowledge_next] at ht
  cases ht
  rfl

/-- A step of any other event leaves BUSY, DONE, L and R. -/
theorem step_keeps {s t : State} (h : step s = .next t) (ha : ∀ op : Op, ¬ Accepts s op)
    (hc : ∀ l : Latch, eventOf s ≠ .completion l) (hr : eventOf s ≠ .reset) :
    t.status.busy = s.status.busy ∧ t.status.done = s.status.done ∧ t.latch = s.latch ∧ t.r = s.r := by
  rcases step_next h with ⟨_, rfl⟩ | ⟨_, rfl⟩ | ⟨e, _⟩ | ⟨l, _, _, e, _⟩ | ⟨x, script, _, e, _, ht⟩
  · exact ⟨rfl, rfl, rfl, rfl⟩
  · exact ⟨rfl, rfl, rfl, rfl⟩
  · exact absurd e hr
  · exact absurd e (hc l)
  · have hb : ∀ op : Op, x = writeOf offCMD (encode op.instr) → s.status.busy = true := by
      rintro op rfl
      by_contra hb
      exact ha op ⟨e, Bool.eq_false_of_not_eq_true hb⟩
    obtain ⟨hbusy, hdone, hlatch⟩ := transact_keeps ht hb
    exact ⟨hbusy, hdone, hlatch, (transact_frame ht).1⟩

/-- Each step is one of the four: an acceptance, a completion, an assertion of reset, or none of them. -/
theorem event_cases (s : State) :
    (∃ op, Accepts s op) ∨ (∃ l, eventOf s = .completion l) ∨ eventOf s = .reset ∨
      ((∀ op, ¬ Accepts s op) ∧ (∀ l, eventOf s ≠ .completion l) ∧ eventOf s ≠ .reset) := by
  by_cases ha : ∃ op, Accepts s op
  · exact .inl ha
  by_cases hc : ∃ l, eventOf s = .completion l
  · exact .inr (.inl hc)
  by_cases hr : eventOf s = .reset
  · exact .inr (.inr (.inl hr))
  exact .inr (.inr (.inr ⟨not_exists.1 ha, not_exists.1 hc, hr⟩))

/-- After a step reset is asserted only where the step asserts it, or where it was asserted and the turn passed
(log 6). -/
theorem step_resetAsserted {s t : State} (h : step s = .next t) (hr : t.resetAsserted = true) :
    eventOf s = .reset ∨ (s.resetAsserted = true ∧ t = turnTaken s) := by
  rcases step_next h with ⟨_, rfl⟩ | ⟨_, rfl⟩ | ⟨e, _⟩ | ⟨l, _, hn, _, rfl⟩ | ⟨x, script, hn, _, _, ht⟩
  · exact .inr ⟨hr, rfl⟩
  · cases hr
  · exact .inl e
  · exact absurd hr (by simp [hn])
  · exact absurd hr (by simp [(transact_frame ht).2, hn])

end Sys2Proof.Machine
end

section
/-! PROOFS. The invariant: at reset, over a step, and in every reachable state (R27, R36, R37). -/

namespace Sys2Proof.Machine

/-- A register of zero words holds a canonical value. -/
theorem valueOf_zeroWords_lt : (valueOf zeroWords).toNat < Config.P := by decide

/-- Settles O41: every clause is read off the reset values. -/
theorem invariantHoldsAtReset : Obligations.InvariantHoldsAtReset :=
  ⟨⟨rfl, rfl, valueOf_zeroWords_lt, fun _ => ⟨rfl, rfl, rfl, rfl, rfl⟩⟩, rfl⟩

/-- Settles O42, one case for each kind of event: acceptance and completion move BUSY and L together, and only outside
reset. -/
theorem stepKeepsTheInvariant : Obligations.StepKeepsTheInvariant := by
  rintro s t ⟨hbusy, hdone, hlt, hreset⟩ h
  rcases event_cases s with ⟨op, ha⟩ | ⟨l, he⟩ | he | ⟨ha, hc, hr⟩
  · obtain ⟨hn, script, rfl⟩ := step_of_accepts h ha
    exact ⟨rfl, rfl, hlt, fun hr => absurd hr (by simp [hn])⟩
  · obtain ⟨hn, -, rfl⟩ := step_of_completion h he
    exact ⟨rfl, rfl, by simpa using result_lt l, fun hr => absurd hr (by simp [hn])⟩
  · cases step_of_reset h he
    exact ⟨rfl, rfl, valueOf_zeroWords_lt, fun _ => ⟨rfl, rfl, rfl, rfl, rfl⟩⟩
  · obtain ⟨eb, ed, el, er⟩ := step_keeps h ha hc hr
    refine ⟨by rw [eb, el, hbusy], by rw [eb, ed, hdone], by rw [er]; exact hlt, fun hrt => ?_⟩
    rcases step_resetAsserted h hrt with e | ⟨hrs, rfl⟩
    · exact absurd e hr
    · exact hreset hrs

/-- The invariant holds in every reachable state: what comes from outside is no part of it. -/
theorem Reachable.inv {s : State} (hs : Reachable s) : s.Inv := by
  induction hs with
  | reset => exact invariantHoldsAtReset.1
  | outside s script turns _ ih => exact ih
  | step s t _ h ih => exact stepKeepsTheInvariant s t ih h

/-- The top bit of a canonical register is 0. -/
theorem topBit_eq_false_of_lt (w : Words) (h : (valueOf w).toNat < Config.P) : (w[7]).getLsbD 31 = false := by
  rw [← valueOf_getLsbD w 7 31 (by decide) (by decide)]
  exact Nat.testBit_lt_two_pow (h.trans P_lt)

/-- BUSY and DONE, never both 1, have three pairs of values. -/
theorem busy_done_cases : ∀ busy done : Bool, (busy && done) = false →
    (busy, done) = (false, false) ∨ (busy, done) = (true, false) ∨ (busy, done) = (false, true) := by
  decide

/-- Settles O43 from the invariant of every reachable state. -/
theorem reachableStatesAreConsistent : Obligations.ReachableStatesAreConsistent := by
  intro s hs
  obtain ⟨hbusy, hdone, hlt, -⟩ := hs.inv
  have hlatch : s.status.busy = true ↔ s.latch ≠ none := by rw [hbusy, Option.isSome_iff_ne_none]
  exact ⟨hlatch, hlt, topBit_eq_false_of_lt s.r hlt, busy_done_cases _ _ hdone⟩

end Sys2Proof.Machine
end

section
/-! PROOFS. What BUSY = 0 guarantees (R53): an invariant of every run from a command in flight. -/

namespace Sys2Proof.Machine

/-- The status word is read at its offset (R45). -/
@[simp] theorem memRead_offSTATUS (s : State) : memRead offSTATUS s = statusWord s.status := by
  simp only [memRead, slotOf_offSTATUS]

/-- A word of R is read at its offset (R45). -/
@[simp] theorem memRead_offR (i : Fin 8) (s : State) : memRead (offR i) s = s.r[i] := by
  simp only [memRead, slotOf_offR]

/-- `u` is in a run from a state whose R holds `r` and whose command in flight is `l`: no later ADD or SUB and no reset
is to come, and the command is in flight still or complete, R being the old one or the result. -/
structure CommandUnderWay (r : Words) (l : Latch) (u : State) : Prop where
  noReset : ∀ x ∈ u.turns, x ≠ Turn.assertReset
  noCommand : ∀ x ∈ u.script, x.startsCommand = false
  phase : (u.status.busy = true ∧ u.latch = some l ∧ u.r = r) ∨
    (u.status.busy = false ∧ u.status.done = true ∧ u.latch = none ∧ u.r = wordsOf l.result)

/-- A script that writes no ADD and no SUB to CMD has none accepted. -/
theorem not_accepts_of_script {s : State} (hs : ∀ x ∈ s.script, x.startsCommand = false) (op : Op) :
    ¬ Accepts s op := by
  rintro ⟨he, -⟩
  obtain ⟨x, rest, hx, rfl | ⟨off, mask, val, -, e⟩⟩ := eventOf_transaction he
  · have hn := hs _ (by rw [hx]; exact List.mem_cons_self)
    cases op <;> simp [Stmt.startsCommand, wr, Op.instr] at hn
  · cases e

/-- Every step keeps a command under way: it completes, or nothing of it changes. -/
theorem CommandUnderWay.of_step {r : Words} {l : Latch} {u v : State} (hu : CommandUnderWay r l u)
    (h : step u = .next v) : CommandUnderWay r l v := by
  obtain ⟨hscript, hturns⟩ := step_script_turns h
  refine ⟨fun x hx => hu.noReset x (List.mem_of_mem_tail (hturns ▸ hx)), fun x hx => ?_, ?_⟩
  · rcases hscript with e | e <;> rw [e] at hx
    · exact hu.noCommand x hx
    · exact hu.noCommand x (List.mem_of_mem_tail hx)
  have hr : eventOf u ≠ .reset := fun e => hu.noReset _ (eventOf_reset e) rfl
  by_cases hc : ∃ l', eventOf u = .completion l'
  · obtain ⟨l', he⟩ := hc
    obtain ⟨-, hl', rfl⟩ := step_of_completion h he
    rcases hu.phase with ⟨-, hl, -⟩ | ⟨-, -, hl, -⟩ <;> rw [hl'] at hl <;> cases hl
    exact .inr ⟨rfl, rfl, rfl, rfl⟩
  · obtain ⟨eb, ed, el, er⟩ := step_keeps h (not_accepts_of_script hu.noCommand) (not_exists.1 hc) hr
    rw [eb, ed, el, er]
    exact hu.phase

/-- Settles O54: a command under way stays so along the run, and STATUS says which of its two phases holds. -/
theorem resultGuarantee : Obligations.ResultGuarantee := by
  intro n s t l hl hb _ hturns hscript hrun
  have ht : CommandUnderWay s.r l t :=
    runSteps_invariant _ (fun _ _ => CommandUnderWay.of_step) n s t ⟨hturns, hscript, .inl ⟨hb, hl, rfl⟩⟩ hrun
  obtain ⟨bit0, bit1, -, -⟩ := statusWord_bits t.status
  have hstatus : memRead 0x64 t = statusWord t.status := memRead_offSTATUS t
  rw [hstatus, bit0, bit1]
  rcases ht.phase with ⟨hbusy, hlatch, hr⟩ | ⟨hbusy, hdone, -, hr⟩
  · exact ⟨fun _ => ⟨hr, hlatch⟩, fun h => absurd h (by simp [hbusy])⟩
  · refine ⟨fun h => absurd h (by simp [hbusy]), fun _ => ⟨fun i => ?_, hdone⟩⟩
    have hword : memRead (offR i) t = (wordsOf l.result)[i] := by rw [memRead_offR, hr]
    rw [← wordsOf_get]
    exact hword

end Sys2Proof.Machine
end

section
/-! PROOFS. Who changes BUSY, L and the error flags (R23, R25, R26), and the values of reset (R35, R116). -/

namespace Sys2Proof.Machine

/-- Settles O44, one clause for each kind of event. -/
theorem busyChangesOnlyAsSaid : Obligations.BusyChangesOnlyAsSaid := by
  refine fun s t h => ⟨fun op ha => ?_, fun l he => ?_, fun he => ?_, fun ha hc hr => (step_keeps h ha hc hr).1⟩
  · obtain ⟨-, script, rfl⟩ := step_of_accepts h ha; rfl
  · obtain ⟨-, -, rfl⟩ := step_of_completion h he; rfl
  · cases step_of_reset h he; rfl

/-- A read returns nothing of L (R26). -/
theorem memRead_latch (s : State) (l : Option Latch) (off : Offset) :
    memRead off { s with latch := l } = memRead off s := rfl

/-- Settles O47, one clause for each kind of event and one for a read. -/
theorem latchChangesOnlyAsSaid : Obligations.LatchChangesOnlyAsSaid := by
  refine ⟨fun s t h => ⟨fun op ha => ?_, fun l he => ?_, fun he => ?_, fun ha hc hr => ?_⟩, memRead_latch⟩
  · obtain ⟨-, script, rfl⟩ := step_of_accepts h ha; rfl
  · obtain ⟨-, -, rfl⟩ := step_of_completion h he; rfl
  · cases step_of_reset h he; rfl
  · obtain ⟨-, -, hlatch, -⟩ := step_keeps h ha hc hr; exact hlatch

/-- What a transaction does to the error flags: nothing, one of the two errors, or the write of STATUS. -/
theorem transact_errorFlags {h : Config.BusErrHandling} {x : Transaction} {s s' : State}
    (hn : transact h x s = .next s') :
    (s'.status.errIllegal = s.status.errIllegal ∧ s'.status.errBusy = s.status.errBusy) ∨
    (∃ w, x = writeOf offCMD w ∧ decode w = none ∧ s'.status = s.status.raisedIllegal) ∨
    (∃ op : Op, x = writeOf offCMD (encode op.instr) ∧ s.status.busy = true ∧ s'.status = s.status.raisedBusy) ∨
    (∃ v, x = writeOf offSTATUS v ∧ s'.status = s.status.written v) := by
  obtain ⟨p, ⟨rfl, _⟩ | ⟨i, v, _, rfl⟩ | ⟨i, v, _, rfl⟩ | ⟨w, e, hd, rfl⟩ | ⟨op, e, rfl⟩ | ⟨v, e, rfl⟩⟩ :=
    transact_effect hn
  · exact .inl ⟨rfl, rfl⟩
  · exact .inl ⟨rfl, rfl⟩
  · exact .inl ⟨rfl, rfl⟩
  · exact .inr (.inl ⟨w, e, hd, rfl⟩)
  · rcases start_cases op s with ⟨hb, k⟩ | ⟨_, k⟩ <;> rw [k]
    · exact .inr (.inr (.inl ⟨op, e, hb, rfl⟩))
    · exact .inl ⟨rfl, rfl⟩
  · exact .inr (.inr (.inr ⟨v, e, rfl⟩))

/-- What a step does to the error flags (R25). -/
theorem step_errorFlags {s t : State} (h : step s = .next t) :
    (t.status.errIllegal = s.status.errIllegal ∧ t.status.errBusy = s.status.errBusy) ∨
    (eventOf s = .reset ∧ t.status = Status.reset) ∨
    (∃ w, eventOf s = .transaction (writeOf offCMD w) ∧ decode w = none ∧ t.status = s.status.raisedIllegal) ∨
    (∃ op : Op, eventOf s = .transaction (writeOf offCMD (encode op.instr)) ∧ s.status.busy = true ∧
      t.status = s.status.raisedBusy) ∨
    (∃ v, eventOf s = .transaction (writeOf offSTATUS v) ∧ t.status = s.status.written v) := by
  rcases step_next h with ⟨_, rfl⟩ | ⟨_, rfl⟩ | ⟨e, rfl⟩ | ⟨l, _, _, _, rfl⟩ | ⟨x, script, _, e, _, ht⟩
  · exact .inl ⟨rfl, rfl⟩
  · exact .inl ⟨rfl, rfl⟩
  · exact .inr (.inl ⟨e, rfl⟩)
  · exact .inl ⟨rfl, rfl⟩
  · rcases transact_errorFlags ht with k | ⟨w, rfl, k⟩ | ⟨op, rfl, k⟩ | ⟨v, rfl, k⟩
    · exact .inl k
    · exact .inr (.inr (.inl ⟨w, e, k⟩))
    · exact .inr (.inr (.inr (.inl ⟨op, e, k⟩)))
    · exact .inr (.inr (.inr (.inr ⟨v, e, k⟩)))

/-- Settles O46: of the five things a step can do to the error flags, each clause names those that do it. -/
theorem errorFlagsAreSticky : Obligations.ErrorFlagsAreSticky := by
  intro s t h
  rcases step_errorFlags h with ⟨hi, hb⟩ | ⟨e, k⟩ | ⟨w, e, hd, k⟩ | ⟨op, e, hbusy, k⟩ | ⟨v, e, k⟩
  · simp +contextual [hi, hb]
  · simp [k, e]
  · exact ⟨fun _ _ => ⟨w, e, hd⟩, by simp +contextual [k]⟩
  · refine ⟨?_, ?_, fun _ _ => ⟨hbusy, op, e⟩, ?_⟩ <;> simp +contextual [k]
  · refine ⟨?_, fun hs ht => .inr ⟨v, e, ?_⟩, ?_, fun hs ht => .inr ⟨v, e, ?_⟩⟩
    · simp +contextual [k]
    · simpa [k, hs] using ht
    · simp +contextual [k]
    · simpa [k, hs] using ht

/-- Settles O38: the reset state is read off, and the assertion of reset writes the same values. -/
theorem resetClearsTheBlock : Obligations.ResetClearsTheBlock := by
  refine ⟨⟨rfl, rfl, rfl, rfl, rfl⟩, fun h s rest hs => ?_⟩
  have hn : nextTurn s = .assertReset := by simp only [nextTurn, hs]
  simp [stepUnder_eq, hn, takeTurn, resetBlock, turnTaken, hs, zeroWords, Status.reset]

end Sys2Proof.Machine
end

section
/-! PROOFS. The little-endian order (R40): a value as the weighted sum of its bytes, a word as four of them. -/

namespace Sys2Proof.Machine

/-- The lowest `n` digits of a number in base `b`, weighted and added, are its residue modulo `b ^ n`. -/
theorem sum_digits (b x n : Nat) : ∑ i ∈ Finset.range n, x / b ^ i % b * b ^ i = x % b ^ n := by
  induction n with
  | zero => simp [Nat.mod_one]
  | succ n ih => rw [Finset.sum_range_succ, ih, Nat.mod_pow_succ, Nat.mul_comm]

/-- Byte `j` is digit `j` of the value in base 256 (R10). -/
theorem byteOf_toNat (v : Value) (j : Fin 32) : (byteOf v j).toNat = v.toNat / (2 ^ 8) ^ j.val % 2 ^ 8 := by
  rw [byteOf, BitVec.extractLsb'_toNat, Nat.shiftRight_eq_div_pow, pow_mul]

/-- A value as the weighted sum of its bytes (R40). -/
theorem toNat_eq_sum_byteOf (v : Value) : v.toNat = ∑ j : Fin 32, (byteOf v j).toNat * 2 ^ (8 * j.val) := by
  simp only [byteOf_toNat, pow_mul]
  rw [Fin.sum_univ_eq_sum_range (fun j => v.toNat / (2 ^ 8) ^ j % 2 ^ 8 * (2 ^ 8) ^ j), sum_digits]
  exact (Nat.mod_eq_of_lt v.isLt).symm

/-- A value as the weighted sum of its words (R12, R40). -/
theorem toNat_eq_sum_wordOf (v : Value) : v.toNat = ∑ i : Fin 8, (wordOf v i).toNat * 2 ^ (32 * i.val) := by
  simpa only [valueOf_wordsOf, wordsOf_get] using valueOf_toNat (wordsOf v)

/-- A bit vector below another: the Horner step of a number in base `2 ^ m`. -/
theorem toNat_append_horner {n m : Nat} (x : BitVec n) (y : BitVec m) :
    (x ++ y).toNat = 2 ^ m * x.toNat + y.toNat := by
  rw [BitVec.toNat_append, ← Nat.shiftLeft_add_eq_or_of_lt y.isLt, Nat.shiftLeft_eq, Nat.mul_comm]

/-- The first byte of a word is the least significant (R40). -/
theorem wordOfBytes_toNat (e0 e1 e2 e3 : Byte) :
    (wordOfBytes e0 e1 e2 e3).toNat = e0.toNat + e1.toNat * 2 ^ 8 + e2.toNat * 2 ^ 16 + e3.toNat * 2 ^ 24 := by
  simp only [wordOfBytes, toNat_append_horner]
  ring

/-- Word `i` of a value is made of its bytes 4i to 4i + 3 (R40). -/
theorem wordOfBytes_byteOf (v : Value) (i : Fin 8) :
    wordOfBytes (byteOf v (Fin.ofNat 32 (4 * i.val))) (byteOf v (Fin.ofNat 32 (4 * i.val + 1)))
      (byteOf v (Fin.ofNat 32 (4 * i.val + 2))) (byteOf v (Fin.ofNat 32 (4 * i.val + 3))) = wordOf v i := by
  have hj (k : Nat) (hk : k < 4) : (Fin.ofNat 32 (4 * i.val + k)).val = 4 * i.val + k :=
    Nat.mod_eq_of_lt (by omega)
  have h0 : (Fin.ofNat 32 (4 * i.val)).val = 4 * i.val := hj 0 (by decide)
  rw [wordOfBytes, byteOf, byteOf, byteOf, byteOf, wordOf, hj 3 (by decide), hj 2 (by decide), hj 1 (by decide), h0,
    BitVec.extractLsb'_append_extractLsb'_eq_extractLsb' (by omega),
    BitVec.extractLsb'_append_extractLsb'_eq_extractLsb' (by omega),
    BitVec.extractLsb'_append_extractLsb'_eq_extractLsb' (by omega), ← Nat.mul_assoc]

/-- The words copied from the 32-byte encoding of a value are the value's own (R40). -/
theorem wordsOfEncoding_encodingOf (v : Value) : wordsOfEncoding (encodingOf v) = wordsOf v := by
  simp only [wordsOf, ← wordOfBytes_byteOf, wordsOfEncoding, encodingOf, Vector.getElem_ofFn]
  rfl

/-- The slot of each word of A, B and R (R17, R69). -/
theorem slotOf_words (i : Fin 8) : slotOf (offA i) = .a i ∧ slotOf (offB i) = .b i ∧ slotOf (offR i) = .r i :=
  ⟨slotOf_offA i, slotOf_offB i, slotOf_offR i⟩

/-- Settles O8, one lemma for each line of R40. -/
theorem valuesAreLittleEndian : Obligations.ValuesAreLittleEndian := fun v =>
  ⟨toNat_eq_sum_byteOf v, fun i => by rw [← wordOfBytes_byteOf, wordOfBytes_toNat], toNat_eq_sum_wordOf v,
    slotOf_words, wordsOfEncoding_encodingOf v, valueOf_wordsOf v⟩

end Sys2Proof.Machine
end

section
/-! PROOFS. The register window: reads and writes of each slot (R45, R46), repeated accesses (R48) and the error
response (R43, R44, R99). -/

namespace Sys2Proof.Machine

/-- An offset is aligned when 4 divides it (R43). -/
theorem aligned_iff (off : Offset) : aligned off = true ↔ off.toNat % 4 = 0 := by revert off; decide

/-- From 0x68 on the window is reserved (R17, R69). -/
theorem slotOf_reserved {off : Offset} (h : 0x68 ≤ off.toNat) : slotOf off = .reserved := by revert off; decide

/-- A word of A is read at its offset (R45). -/
@[simp] theorem memRead_offA (i : Fin 8) (s : State) : memRead (offA i) s = s.a[i] := by
  simp only [memRead, slotOf_offA]

/-- A word of B is read at its offset (R45). -/
@[simp] theorem memRead_offB (i : Fin 8) (s : State) : memRead (offB i) s = s.b[i] := by
  simp only [memRead, slotOf_offB]

/-- CMD reads as 0 (R45). -/
@[simp] theorem memRead_offCMD (s : State) : memRead offCMD s = 0 := by
  simp only [memRead, slotOf_offCMD]

/-- A reserved offset reads as 0 (R45). -/
theorem memRead_reserved {off : Offset} (h : 0x68 ≤ off.toNat) (s : State) : memRead off s = 0 := by
  simp only [memRead, slotOf_reserved h]

/-- The status word holds the four fields in its bits 3:0 and nothing else (R22, R45). -/
theorem statusWord_toNat (s : Status) : (statusWord s).toNat =
    s.busy.toNat + 2 * s.done.toNat + 4 * s.errIllegal.toNat + 8 * s.errBusy.toNat := by
  obtain ⟨busy, done, errIllegal, errBusy⟩ := s
  revert busy done errIllegal errBusy; decide

/-- Settles O16, one lemma for each kind of slot; a read's next state is the old one with the response. -/
theorem readReturnsTheSlotAndChangesNothing : Obligations.ReadReturnsTheSlotAndChangesNothing := fun s =>
  ⟨fun i => ⟨memRead_offA i s, memRead_offB i s, memRead_offR i s⟩, memRead_offCMD s,
    (congrArg BitVec.toNat (memRead_offSTATUS s)).trans (statusWord_toNat s.status),
    fun _ h => memRead_reserved h s, fun h off ha => transact_readOf h off ((aligned_iff off).2 ha) s⟩

/-- A word of A is written at its offset (R46). -/
@[simp] theorem memWrite_offA (i : Fin 8) (v : Word) (s : State) : memWrite (offA i) v s = .next (writeA i v s) := by
  simp only [memWrite, slotOf_offA]

/-- A word of B is written at its offset (R46). -/
@[simp] theorem memWrite_offB (i : Fin 8) (v : Word) (s : State) : memWrite (offB i) v s = .next (writeB i v s) := by
  simp only [memWrite, slotOf_offB]

/-- A write of R does nothing (R20, R46). -/
@[simp] theorem memWrite_offR (i : Fin 8) (v : Word) (s : State) : memWrite (offR i) v s = .next s := by
  simp only [memWrite, slotOf_offR]

/-- A write of STATUS clears the error flags whose bits are set (R22, R46). -/
@[simp] theorem memWrite_offSTATUS (v : Word) (s : State) : memWrite offSTATUS v s = .next (writeStatus v s) := by
  simp only [memWrite, slotOf_offSTATUS]

/-- A write of a reserved offset does nothing (R46). -/
theorem memWrite_reserved {off : Offset} (h : 0x68 ≤ off.toNat) (v : Word) (s : State) :
    memWrite off v s = .next s := by
  simp only [memWrite, slotOf_reserved h]

/-- The write-1-to-clear of STATUS, flag by flag (R22). -/
theorem Status.written_eq_ite (s : Status) (v : Word) : s.written v = { s with
    errIllegal := if v.getLsbD 2 then false else s.errIllegal
    errBusy := if v.getLsbD 3 then false else s.errBusy } := by
  have hclear (b flag : Bool) : (flag && !b) = if b then false else flag := by cases b <;> simp
  simp only [Status.written, hclear, BitVec.getElem_eq_testBit_toNat, BitVec.getLsbD]

/-- Settles O17, one lemma for each kind of slot. -/
theorem writeActsOnTheSlot : Obligations.WriteActsOnTheSlot := fun s v =>
  ⟨fun i => ⟨memWrite_offA i v s, memWrite_offB i v s, memWrite_offR i v s⟩, memWrite_offCMD v s,
    (memWrite_offSTATUS v s).trans (by rw [writeStatus, Status.written_eq_ite]), fun _ h => memWrite_reserved h v s⟩

/-- A transaction the block does not perform raises BusError, whatever it asks for (R99, R101). -/
theorem transact_of_not_performable (h : Config.BusErrHandling) {t : Transaction} (hp : performable t = false)
    (s : State) : transact h t s = raiseBusError h t s := by
  simp [transact, hp]

/-- The data returned with an error response is 0 (R99). -/
theorem readData_of_not_performable {t : Transaction} (hp : performable t = false) (s : State) :
    readData t s = 0 := by
  simp [readData, hp]

/-- Settles O18: such a transaction is not performed, and BusError changes the response at most. -/
theorem misalignedOrNarrowIsBusError : Obligations.MisalignedOrNarrowIsBusError := by
  intro s t ht
  have hp : performable t = false := (performable_eq_false t).2 ht
  refine ⟨transact_of_not_performable .hostFault hp s, transact_of_not_performable .ignored hp s,
    fun hq => ⟨?_, readData_of_not_performable hp s⟩, fun v hq => ?_⟩ <;> simp only [errorResponse, hq]

/-- A read keeps what it read, so repeating it answers the same and changes nothing (R48). -/
theorem transact_readOf_repeat {h : Config.BusErrHandling} {off : Offset} {s s' : State}
    (hn : transact h (readOf off) s = .next s') :
    s' = { s with response := s'.response } ∧ transact h (readOf off) s' = .next s' := by
  rcases transact_next hn with ⟨hp, rfl, rfl⟩ | ⟨hp, -, rfl⟩ | ⟨-, v, u, e, -⟩
  · exact ⟨rfl, transact_of_not_performable .ignored hp _⟩
  · exact ⟨rfl, transact_readOf h off (by simpa using hp) _⟩
  · cases e

/-- A word of A written twice is written once (R48). -/
theorem writeA_writeA (i : Fin 8) (v : Word) (s : State) : writeA i v (writeA i v s) = writeA i v s := by
  simp [writeA]

/-- A word of B written twice is written once (R48). -/
theorem writeB_writeB (i : Fin 8) (v : Word) (s : State) : writeB i v (writeB i v s) = writeB i v s := by
  simp [writeB]

/-- A flag of STATUS cleared twice is cleared once (R48). -/
theorem writeStatus_writeStatus (v : Word) (s : State) : writeStatus v (writeStatus v s) = writeStatus v s := by
  simp [writeStatus, Status.written]

/-- A write of ADD's or SUB's word to CMD starts the command (R82, R83, R87). -/
@[simp] theorem executeCommand_encode_op (op : Op) (s : State) :
    executeCommand (encode op.instr) s = .next (start op s) := by
  rw [executeCommand_of_decode_some (decode_encode_op op), exec_op]

/-- A command accepted while ERR_BUSY = 0 is dropped with ERR_BUSY when it is repeated (R48, R98). -/
theorem start_accept_ne (op : Op) {s : State} (hs : s.status.errBusy = false) :
    start op (accept op s) ≠ accept op s := by
  intro h
  have he : (raiseBusyCommand (accept op s)).status.errBusy = (accept op s).status.errBusy := by
    rw [← start_of_busy op (s := accept op s) rfl, h]
  simp [hs] at he

/-- Settles O21; the command that is not idempotent is ADD, accepted at reset and dropped the second time. -/
theorem repeatedAccesses : Obligations.RepeatedAccesses := by
  refine ⟨fun h off s s' => transact_readOf_repeat,
    fun i v s s' => ⟨fun hn => ?_, fun hn => ?_, memWrite_offR i v s⟩,
    ⟨encode .add, State.reset, accept .add State.reset, rfl, fun hn => ?_⟩, fun v s s' hn => ?_,
    fun off v s h => memWrite_reserved h v s⟩
  · rw [memWrite_offA] at hn; cases hn
    exact ⟨rfl, by rw [memWrite_offA, writeA_writeA]⟩
  · rw [memWrite_offB] at hn; cases hn
    exact ⟨rfl, by rw [memWrite_offB, writeB_writeB]⟩
  · rw [memWrite_offCMD] at hn
    exact start_accept_ne .add rfl (Host.Outcome.next.inj hn)
  · rw [memWrite_offSTATUS] at hn; cases hn
    rw [memWrite_offSTATUS, writeStatus_writeStatus]

end Sys2Proof.Machine
end

section
/-! PROOFS. Runs of two steps: the two orders of a completion and a command (R52, R102). -/

namespace Sys2Proof.Machine

/-- A run begins with its first step. -/
theorem runSteps_succ_of_step {s u : State} (h : step s = .next u) (n : Nat) : runSteps (n + 1) s = runSteps n u := by
  rw [runSteps_succ, h]

/-- Two steps, run. -/
theorem runSteps_two {s u t : State} (hs : step s = .next u) (hu : step u = .next t) : runSteps 2 s = .next t := by
  rw [runSteps_succ_of_step hs, runSteps_succ_of_step hu, runSteps_zero]

/-- The ENGINE's turn completes the command in flight (R86). -/
theorem step_engine {s : State} {l : Latch} (hn : nextTurn s = .engine) (hr : s.resetAsserted = false)
    (hl : s.latch = some l) : step s = .next (complete l (turnTaken s)) := by
  simp [step, stepUnder_eq, hn, takeTurn, hr, engineStep, hl]

/-- The HOST's turn that writes ADD or SUB to CMD starts the command (R87). -/
theorem step_command (s : State) {op : Op} {rest : List Stmt} (hn : nextTurn s = .host) (hr : s.resetAsserted = false)
    (hs : s.script = wr offCMD (encode op.instr) :: rest) :
    step s = .next (respond .wrOk (start op { turnTaken s with script := rest })) := by
  rw [step, stepUnder_wr_offCMD _ s _ rest hn hr hs, executeCommand_encode_op, acknowledge_next]

/-- Settles O35: with the completion first BUSY is 0 at the write and the command is accepted, with the write first BUSY
is 1 and the command is dropped. -/
theorem completionAndCommandInEitherOrder : Obligations.CompletionAndCommandInEitherOrder := by
  intro s l op hl hb hr hs
  refine ⟨fun turns ht => ?_, ?_⟩
  · have hn : nextTurn { s with turns := turns } = .engine ∧
        nextTurn (complete l (turnTaken { s with turns := turns })) = .host := by
      rcases ht with rfl | rfl
      · exact ⟨rfl, rfl⟩
      · exact ⟨by simp [nextTurn, defaultTurn, hl], rfl⟩
    refine ⟨_, runSteps_two (step_engine hn.1 hr hl) (step_command _ hn.2 hr hs), ?_⟩
    rw [start_of_not_busy op rfl]
    exact ⟨rfl, rfl, rfl⟩
  · have hdrop : step { s with turns := [.host, .engine] } =
        .next (respond .wrOk (raiseBusyCommand { s with script := [], turns := [.engine] })) := by
      rw [step_command { s with turns := [.host, .engine] } rfl hr hs, start_of_busy op (by exact hb)]
      rfl
    exact ⟨_, runSteps_two hdrop (step_engine rfl hr hl), rfl, rfl, rfl⟩

end Sys2Proof.Machine
end

section
/-! PROOFS. The eight writes of WRA and WRB (R46, R71): one induction for both registers. -/

namespace Sys2Proof.Machine

/-- The HOST's turn that writes `v` to an aligned offset. -/
theorem step_wr (s : State) {u : State} {off : Offset} {v : Word} {rest : List Stmt} (hn : nextTurn s = .host)
    (hr : s.resetAsserted = false) (hs : s.script = wr off v :: rest) (ha : aligned off = true)
    (hw : memWrite off v { turnTaken s with script := rest } = .next u) : step s = .next (respond .wrOk u) := by
  rw [step, stepUnder_txn _ s (writeOf off v) rest hn hr hs, transact_writeOf _ off ha, hw, acknowledge_next]

/-- Word `i` of the register set to word `i` of `v`. -/
def setWordOf (v : Value) (w : Words) (i : Fin 8) : Words := w.set i (wordOf v i)

/-- Setting each of the eight words leaves nothing of the old register. -/
theorem foldl_setWordOf (v : Value) (w : Words) : (List.finRange 8).foldl (setWordOf v) w = wordsOf v := by
  apply Vector.ext
  intro i hi
  interval_cases i <;> simp [List.finRange_succ, setWordOf, wordsOf]

/-- `s` with the given A and the given environment. -/
def State.withA (s : State) (w : Words) (p : Option Response) (script : List Stmt) (turns : List Turn) : State :=
  { s with a := w, response := p, script := script, turns := turns }

/-- `s` with the given B and the given environment. -/
def State.withB (s : State) (w : Words) (p : Option Response) (script : List Stmt) (turns : List Turn) : State :=
  { s with b := w, response := p, script := script, turns := turns }

/-- The HOST's turn that writes a word of A. -/
theorem step_withA {s : State} (hr : s.resetAsserted = false) (i : Fin 8) (v : Word) (w : Words) (p : Option Response)
    (script : List Stmt) (turns : List Turn) : step (s.withA w p (wr (offA i) v :: script) (.host :: turns)) =
      .next (s.withA (w.set i v) (some .wrOk) script turns) :=
  step_wr (s.withA w p (wr (offA i) v :: script) (.host :: turns)) rfl hr rfl (aligned_offA i) (memWrite_offA i v _)

/-- The HOST's turn that writes a word of B. -/
theorem step_withB {s : State} (hr : s.resetAsserted = false) (i : Fin 8) (v : Word) (w : Words) (p : Option Response)
    (script : List Stmt) (turns : List Turn) : step (s.withB w p (wr (offB i) v :: script) (.host :: turns)) =
      .next (s.withB (w.set i v) (some .wrOk) script turns) :=
  step_wr (s.withB w p (wr (offB i) v :: script) (.host :: turns)) rfl hr rfl (aligned_offB i) (memWrite_offB i v _)

section
variable (load : Words → Option Response → List Stmt → List Turn → State) (off : Fin 8 → Offset)
  (hstep : ∀ i v w p script turns, step (load w p (wr (off i) v :: script) (.host :: turns)) =
    .next (load (w.set i v) (some .wrOk) script turns))
include hstep

/-- Where `load` is the state as a function of a register and the environment, and each write of a word is one step, the
words of `v` at the indices `l` are loaded in `l.length` steps. -/
theorem runSteps_load (v : Value) (rest : List Stmt) (turns : List Turn) (l : List (Fin 8)) (w : Words)
    (p : Option Response) :
    runSteps l.length
      (load w p (l.map (fun i => wr (off i) (wordOf v i)) ++ rest) (List.replicate l.length .host ++ turns)) =
      .next (load (l.foldl (setWordOf v) w) (l.foldl (fun _ _ => some .wrOk) p) rest turns) := by
  induction l generalizing w p with
  | nil => rfl
  | cons i l ih => exact (runSteps_succ_of_step (hstep i (wordOf v i) w p _ _) l.length).trans (ih _ _)

/-- All eight writes leave `v` in the register (R71). -/
theorem runSteps_load_eight (v : Value) (rest : List Stmt) (turns : List Turn) (w : Words) (p : Option Response) :
    runSteps 8 (load w p ((List.finRange 8).map (fun i => wr (off i) (wordOf v i)) ++ rest)
      (List.replicate 8 .host ++ turns)) = .next (load (wordsOf v) (some .wrOk) rest turns) := by
  have h := runSteps_load load off hstep v rest turns (List.finRange 8) w p
  rw [foldl_setWordOf] at h
  exact h

end

/-- Settles O37: WRA and WRB load a register by the same eight steps. -/
theorem operandLoadsWriteTheWholeValue : Obligations.OperandLoadsWriteTheWholeValue := fun s v rest turns hr =>
  ⟨runSteps_load_eight s.withA offA (step_withA hr) v rest turns s.a s.response,
    runSteps_load_eight s.withB offB (step_withB hr) v rest turns s.b s.response⟩

end Sys2Proof.Machine
end

section
/-! PROOFS. Scripts whose transactions the block performs run on (R43, R44, R94). -/

namespace Sys2Proof.Machine

/-- The tail of a well-formed script is well formed. -/
theorem scriptWf_tail {script : List Stmt} (h : scriptWf script = true) : scriptWf script.tail = true :=
  List.all_eq_true.2 fun x hx => List.all_eq_true.1 h x (List.mem_of_mem_tail hx)

/-- The block performs the transaction of a step of a well-formed script (R43, R44). -/
theorem performable_of_scriptWf {s : State} {t : Transaction} (hs : scriptWf s.script = true)
    (he : eventOf s = .transaction t) : performable t = true := by
  obtain ⟨x, rest, hx, k⟩ := eventOf_transaction he
  have hwf : x.wf = true := List.all_eq_true.1 hs x (hx ▸ List.mem_cons_self)
  rcases k with rfl | ⟨off, mask, val, rfl, rfl⟩ <;> exact hwf

/-- A step with a well-formed script answers a next state (R94). -/
theorem step_of_scriptWf {s : State} (hs : scriptWf s.script = true) : ∃ t, step s = .next t := by
  rcases stepUnder_event Config.busErrHandling s with
    ⟨-, k⟩ | ⟨-, k⟩ | ⟨-, k⟩ | ⟨l, -, -, -, k⟩ | ⟨x, script, -, he, -, k⟩
  · exact ⟨_, k⟩
  · exact ⟨_, k⟩
  · exact ⟨_, k⟩
  · exact ⟨_, k⟩
  · obtain ⟨t, ht⟩ := transact_performable Config.busErrHandling x _ (performable_of_scriptWf hs he)
    exact ⟨t, k.trans ht⟩

/-- A step keeps a well-formed script well formed: it leaves the script or takes its first statement. -/
theorem scriptWf_of_step {s t : State} (hs : scriptWf s.script = true) (h : step s = .next t) :
    scriptWf t.script = true := by
  rcases (step_script_turns h).1 with e | e <;> rw [e]
  · exact hs
  · exact scriptWf_tail hs

/-- Settles O52, by induction on the number of steps. -/
theorem wellFormedScriptsNeverStop : Obligations.WellFormedScriptsNeverStop := by
  intro n
  induction n with
  | zero => exact fun s hs => ⟨s, rfl, hs⟩
  | succ n ih =>
    intro s hs
    obtain ⟨u, hu⟩ := step_of_scriptWf hs
    rw [runSteps_succ_of_step hu]
    exact ih u (scriptWf_of_step hs hu)

end Sys2Proof.Machine
end

section
/-! PROOFS. Decoding and encoding of the command words (R63 to R67), the slot of an offset (R69) and the expansions of
the pseudo-instructions (R71). -/

namespace Sys2Proof.Machine

/-- A command's word decodes to the command: its `rsv` is 0 and its `opc` reads back (R60). -/
theorem decode_encode (i : Instr) : decode (encode i) = some i := by
  have hfields : Laws.EncodingFields.Statement i := by
    cases i with
    | nop => exact Laws.EncodingFields.nop
    | add => exact Laws.EncodingFields.add
    | sub => exact Laws.EncodingFields.sub
  obtain ⟨-, hrsv, hopc⟩ := hfields
  rw [decode, if_pos hrsv, hopc]

/-- A command has exactly one word (R63, R64, R65). -/
theorem decode_eq_some_iff (w : Word) (i : Instr) : decode w = some i ↔ w = encode i :=
  ⟨eq_encode_of_decode w i, fun h => h ▸ decode_encode i⟩

/-- Settles O2: decoding inverts the encoder, and the three words are the encoder's. -/
theorem eachCommandHasExactlyOneWord : Obligations.EachCommandHasExactlyOneWord := fun w =>
  ⟨decode_eq_some_iff w .add, decode_eq_some_iff w .sub, decode_eq_some_iff w .nop, decode_eq_some_iff w⟩

/-- A word is illegal when it is no command's word. -/
theorem decode_eq_none_iff_ne_encode (w : Word) : decode w = none ↔ ∀ i : Instr, w ≠ encode i := by
  simp only [Option.eq_none_iff_forall_ne_some, ne_eq, decode_eq_some_iff]

/-- The commands' words are the numbers below 3. -/
theorem exists_eq_encode_iff (w : Word) : (∃ i : Instr, w = encode i) ↔ w.toNat < 3 := by
  constructor
  · rintro ⟨i, rfl⟩
    cases i <;> decide
  · intro h
    obtain h0 | h1 | h2 : w.toNat = 0 ∨ w.toNat = 1 ∨ w.toNat = 2 := by omega
    · exact ⟨.nop, BitVec.eq_of_toNat_eq h0⟩
    · exact ⟨.add, BitVec.eq_of_toNat_eq h1⟩
    · exact ⟨.sub, BitVec.eq_of_toNat_eq h2⟩

/-- The illegal words are the numbers from 3 up (R66). -/
theorem decode_eq_none_iff (w : Word) : decode w = none ↔ 3 ≤ w.toNat := by
  rw [decode_eq_none_iff_ne_encode, ← not_exists, exists_eq_encode_iff, not_lt]

/-- `opc` is a part of the word's number (R60). -/
theorem opcField_toNat_le (w : Word) : (opcField w).toNat ≤ w.toNat := by
  rw [opcField, BitVec.extractLsb'_toNat, Nat.shiftRight_zero]
  exact Nat.mod_le _ _

/-- A set bit of `rsv` makes a word illegal (R60, R66). -/
theorem decode_of_rsvField_ne_zero {w : Word} (h : rsvField w ≠ 0) : decode w = none := by
  rw [decode, if_neg h]

/-- Settles O3: an `opc` from 3 up makes the word's number at least 3, and the write to CMD is dispatched. -/
theorem allOtherWordsAreIllegal : Obligations.AllOtherWordsAreIllegal := fun w =>
  ⟨decode_eq_none_iff w, fun h => (decode_eq_none_iff w).2 (h.trans (opcField_toNat_le w)),
    decode_of_rsvField_ne_zero, fun h s => (memWrite_offCMD w s).trans (executeCommand_of_decode_none h s)⟩

/-- Settles O1, one case for each line of the decode function. -/
theorem decodeReadsTheWholeWord : Obligations.DecodeReadsTheWholeWord := by
  intro w
  split_ifs with hnop hadd hsub
  · exact (decode_eq_some_iff w .nop).2 hnop
  · exact (decode_eq_some_iff w .add).2 hadd
  · exact (decode_eq_some_iff w .sub).2 hsub
  · refine (decode_eq_none_iff_ne_encode w).2 fun i => ?_
    cases i with
    | nop => exact hnop
    | add => exact hadd
    | sub => exact hsub

/-- off[6:2] is the offset in words (R69). -/
theorem slotNumber_toNat (off : Offset) : (off.extractLsb' 2 5).toNat = off.toNat / 4 := by
  have := off.isLt
  rw [BitVec.extractLsb'_toNat, Nat.shiftRight_eq_div_pow]
  omega

/-- off[4:2] is the place among eight words (R69). -/
theorem wordIndex_eq_of_div {off : Offset} {k : Nat} {i : Fin 8} (h : off.toNat / 4 = 8 * k + i) :
    wordIndex off = i := by
  apply Fin.ext
  have hval : (wordIndex off).val = off.toNat / 4 % 8 := by
    rw [wordIndex, BitVec.val_toFin, BitVec.extractLsb'_toNat, Nat.shiftRight_eq_div_pow]
  omega

/-- The slot by the number of the word, as R69 lists it. -/
theorem slotOf_eq_ite (off : Offset) : slotOf off =
    if off.toNat / 4 < 8 then .a (wordIndex off)
    else if off.toNat / 4 < 16 then .b (wordIndex off)
    else if off.toNat / 4 < 24 then .r (wordIndex off)
    else if off.toNat / 4 = 24 then .cmd
    else if off.toNat / 4 = 25 then .status
    else .reserved := by
  simp only [slotOf, slotNumber_toNat]

/-- Settles O5: the number selects the branch, and its last three bits are the word's index. -/
theorem slotIsSelectedByBits6To2 : Obligations.SlotIsSelectedByBits6To2 := by
  refine ⟨fun off i h => ?_, fun off i h => ?_, fun off i h => ?_, fun off h => ?_, fun off h => ?_, fun off h => ?_⟩
  · rw [slotOf_eq_ite, if_pos (by omega), wordIndex_eq_of_div (k := 0) (i := i) (by omega)]
  · rw [slotOf_eq_ite, if_neg (by omega), if_pos (by omega), wordIndex_eq_of_div (k := 1) (i := i) (by omega)]
  · rw [slotOf_eq_ite, if_neg (by omega), if_neg (by omega), if_pos (by omega),
      wordIndex_eq_of_div (k := 2) (i := i) (by omega)]
  · simp [slotOf_eq_ite, h]
  · simp [slotOf_eq_ite, h]
  · exact slotOf_reserved (by omega)

/-- The eight reads of RDR give R, word by word (R12, R71). -/
theorem sum_memRead_offR (s : State) :
    ∑ i : Fin 8, (memRead (offR i) s).toNat * 2 ^ (32 * i.val) = (valueOf s.r).toNat := by
  simp only [memRead_offR, valueOf_toNat]

/-- Settles O6: the lists are the definitions written out, and the two values are what the reads return. -/
theorem pseudoInstructionsExpandAsListed : Obligations.PseudoInstructionsExpandAsListed :=
  ⟨rfl, rfl, rfl, fun _ => rfl, fun _ => rfl, rfl, sum_memRead_offR, rfl, rfl, memRead_offSTATUS, rfl⟩

end Sys2Proof.Machine
end

section
/-! PROOFS. What stops the machine (R94, R99), and the completion of a command in flight (R86, R127). -/

namespace Sys2Proof.Machine

/-- A transaction ends in a next state, or it is refused and the host takes the error response as a fault (R99). -/
theorem transact_next_or_fault (h : Config.BusErrHandling) (t : Transaction) (s : State) :
    (∃ u, transact h t s = .next u) ∨
      (transact h t s = .fault .busError ∧ h = .hostFault ∧ performable t = false) := by
  cases hp : performable t with
  | true => exact .inl (transact_performable h t s hp)
  | false =>
    rw [transact_of_not_performable h hp]
    cases h with
    | hostFault => exact .inr ⟨rfl, rfl, rfl⟩
    | ignored => exact .inl ⟨_, rfl⟩

/-- Settles O51: of the five kinds of step only a transaction can stop, by its error response. -/
theorem onlyAnErrorResponseStops : Obligations.OnlyAnErrorResponseStops := by
  intro s
  rcases stepUnder_event Config.busErrHandling s with
    ⟨-, k⟩ | ⟨-, k⟩ | ⟨-, k⟩ | ⟨l, -, -, -, k⟩ | ⟨x, script, -, he, -, k⟩
  · exact .inl ⟨_, k⟩
  · exact .inl ⟨_, k⟩
  · exact .inl ⟨_, k⟩
  · exact .inl ⟨_, k⟩
  · rcases transact_next_or_fault Config.busErrHandling x { turnTaken s with script := script } with
      ⟨u, hu⟩ | ⟨hf, hh, hp⟩
    · exact .inl ⟨u, k.trans hu⟩
    · exact .inr ⟨k.trans hf, hh, x, he, (performable_eq_false x).1 hp⟩

/-- A step answers a next state where no error response stops the machine (log 4). -/
theorem step_of_scriptGoesOn {s : State} (hs : ScriptGoesOn s) : ∃ t, step s = .next t := by
  rcases onlyAnErrorResponseStops s with h | ⟨-, hh, x, he, hx⟩
  · exact h
  · exfalso
    rcases hs with hi | hwf
    · rw [hh] at hi; cases hi
    · rw [← performable_eq_false, performable_of_scriptWf hwf he] at hx; cases hx

/-- A step keeps that no error response stops the machine. -/
theorem scriptGoesOn_of_step {s t : State} (hs : ScriptGoesOn s) (h : step s = .next t) : ScriptGoesOn t :=
  hs.imp_right fun hwf => scriptWf_of_step hwf h

/-- The command `l` is in flight, no reset is listed and no error response stops the machine. -/
structure InFlight (l : Latch) (s : State) : Prop where
  latch : s.latch = some l
  busy : s.status.busy = true
  released : s.resetAsserted = false
  noReset : ∀ x ∈ s.turns, x ≠ Turn.assertReset
  goesOn : ScriptGoesOn s

/-- While a command is in flight no other is accepted (R98). -/
theorem InFlight.not_accepts {l : Latch} {s : State} (hs : InFlight l s) (op : Op) : ¬ Accepts s op := by
  rintro ⟨-, hb⟩
  rw [hs.busy] at hb
  cases hb

/-- A step from a command in flight completes it, or leaves it in flight: the host's writes do not touch it. -/
theorem InFlight.step_cases {l : Latch} {s t : State} (hs : InFlight l s) (h : step s = .next t) :
    t = complete l (turnTaken s) ∨ InFlight l t := by
  have hr : eventOf s ≠ .reset := fun e => hs.noReset _ (eventOf_reset e) rfl
  by_cases hc : ∃ l', eventOf s = .completion l'
  · obtain ⟨l', he⟩ := hc
    obtain ⟨-, hl', ht⟩ := step_of_completion h he
    rw [hs.latch] at hl'
    cases hl'
    exact .inl ht
  · obtain ⟨eb, -, el, -⟩ := step_keeps h hs.not_accepts (not_exists.1 hc) hr
    refine .inr ⟨el.trans hs.latch, eb.trans hs.busy, ?_, fun x hx => ?_, scriptGoesOn_of_step hs.goesOn h⟩
    · refine Bool.eq_false_of_not_eq_true fun hrt => ?_
      rcases step_resetAsserted h hrt with e | ⟨hrs, -⟩
      · exact hr e
      · rw [hs.released] at hrs; cases hrs
    · exact hs.noReset x (List.mem_of_mem_tail ((step_script_turns h).2 ▸ hx))

/-- Where no turn is listed the ENGINE completes the command in flight (log 2). -/
theorem InFlight.step_of_no_turns {l : Latch} {s : State} (hs : InFlight l s) (ht : s.turns = []) :
    step s = .next (complete l (turnTaken s)) := by
  refine step_engine ?_ hs.released hs.latch
  simp [nextTurn, ht, defaultTurn, hs.latch]

/-- A command in flight completes at the latest one step after the last turn listed. -/
theorem InFlight.completes {l : Latch} (turns : List Turn) {s : State} (hs : InFlight l s) (ht : s.turns = turns) :
    ∃ k u, k ≤ turns.length + 1 ∧ runSteps k s = .next (complete l u) := by
  induction turns generalizing s with
  | nil => exact ⟨1, turnTaken s, le_rfl, runSteps_succ_of_step (hs.step_of_no_turns ht) 0⟩
  | cons x turns ih =>
    obtain ⟨t, h⟩ := step_of_scriptGoesOn hs.goesOn
    rcases hs.step_cases h with rfl | hfl
    · exact ⟨1, turnTaken s, Nat.le_add_left 1 _, runSteps_succ_of_step h 0⟩
    · have htail : t.turns = turns := by rw [(step_script_turns h).2, ht, List.tail_cons]
      obtain ⟨k, u, hk, hrun⟩ := ih hfl htail
      exact ⟨k + 1, u, Nat.succ_le_succ hk, (runSteps_succ_of_step h k).trans hrun⟩

/-- Settles O53, by induction on the turns listed; the completion writes the result and STATUS. -/
theorem commandInFlightCompletes : Obligations.CommandInFlightCompletes := by
  intro s l hl hb hr hturns hscript
  obtain ⟨k, u, hk, hrun⟩ := InFlight.completes s.turns ⟨hl, hb, hr, hturns, hscript⟩ rfl
  exact ⟨k, complete l u, hk, hrun, rfl, rfl, rfl, rfl⟩

end Sys2Proof.Machine
end

section
/-! PROOFS. What an observer of the timing sees of a run does not depend on the operands (R79): each operation's public
part is a function of the public part it starts from. -/

namespace Sys2Proof.Machine

/-! ### The public part of each update -/

@[simp] theorem publicOutcome_next (s : State) : publicOutcome (.next s) = .next s.publicView := rfl

@[simp] theorem writeA_publicView (i : Fin 8) (v : Word) (s : State) :
    (writeA i v s).publicView = s.publicView := rfl

@[simp] theorem writeB_publicView (i : Fin 8) (v : Word) (s : State) :
    (writeB i v s).publicView = s.publicView := rfl

@[simp] theorem writeStatus_publicView (v : Word) (s : State) :
    (writeStatus v s).publicView = { s.publicView with status := s.publicView.status.written v } := rfl

@[simp] theorem raiseIllegalCommand_publicView (s : State) :
    (raiseIllegalCommand s).publicView = { s.publicView with status := s.publicView.status.raisedIllegal } := rfl

@[simp] theorem complete_publicView (l : Latch) (s : State) :
    (complete l s).publicView =
      { s.publicView with op := none, status := s.publicView.status.completed } := rfl

@[simp] theorem respond_publicView (p : Response) (s : State) :
    (respond p s).publicView = { s.publicView with response := some p.publicView } := rfl

@[simp] theorem turnTaken_publicView (s : State) :
    (turnTaken s).publicView = { s.publicView with turns := s.publicView.turns.tail } := rfl

@[simp] theorem withScript_publicView (s : State) (script : List Stmt) :
    State.publicView { s with script := script } =
      { s.publicView with script := script.map Stmt.publicView } := rfl

@[simp] theorem withResetAsserted_publicView (s : State) (level : Bool) :
    State.publicView { s with resetAsserted := level } = { s.publicView with resetAsserted := level } := rfl

@[simp] theorem resetBlock_publicView (s : State) :
    (resetBlock s).publicView = { s.publicView with status := Status.reset, op := none } := rfl

/-- Outcomes that show the same are two next states, one fault or one refusal. -/
theorem publicOutcome_eq_cases {q r : Result} (h : publicOutcome q = publicOutcome r) :
    (∃ u v, q = .next u ∧ r = .next v ∧ u.publicView = v.publicView) ∨
    (∃ f, q = .fault f ∧ r = .fault f) ∨ (∃ x, q = .refused x ∧ r = .refused x) := by
  cases q with
  | next u =>
    cases r with
    | next v => exact .inl ⟨u, v, rfl, rfl, Host.Outcome.next.inj h⟩
    | fault f => cases h
    | refused x => cases h
  | fault f =>
    cases r with
    | next v => cases h
    | fault g => cases h; exact .inr (.inl ⟨f, rfl, rfl⟩)
    | refused x => cases h
  | refused x =>
    cases r with
    | next v => cases h
    | fault f => cases h
    | refused y => cases h; exact .inr (.inr ⟨x, rfl, rfl⟩)

/-! ### Commands and writes -/

/-- A command shows the same, whatever the operands. -/
theorem exec_public (i : Instr) {s t : State} (h : s.publicView = t.publicView) :
    publicOutcome (exec i s) = publicOutcome (exec i t) := by
  cases i with
  | nop => exact congrArg Host.Outcome.next h
  | add => exact congrArg Host.Outcome.next (start_publicView .add s t h)
  | sub => exact congrArg Host.Outcome.next (start_publicView .sub s t h)

/-- A command word shows the same, whatever the operands. -/
theorem executeCommand_public (w : Word) {s t : State} (h : s.publicView = t.publicView) :
    publicOutcome (executeCommand w s) = publicOutcome (executeCommand w t) := by
  cases hd : decode w with
  | none => simp [executeCommand_of_decode_none hd, h]
  | some i => simpa only [executeCommand_of_decode_some hd] using exec_public i h

/-- A write to an operand or to R shows nothing. -/
theorem memWrite_secret {off : Offset} (hs : (slotOf off).secret = true) (v : Word) (s : State) :
    publicOutcome (memWrite off v s) = .next s.publicView := by
  unfold memWrite
  cases hq : slotOf off with
  | a i => rfl
  | b i => rfl
  | r i => rfl
  | cmd => rw [hq] at hs; cases hs
  | status => rw [hq] at hs; cases hs
  | reserved => rw [hq] at hs; cases hs

/-- A write shows the same, whatever the operands. -/
theorem memWrite_public (off : Offset) (v : Word) {s t : State} (h : s.publicView = t.publicView) :
    publicOutcome (memWrite off v s) = publicOutcome (memWrite off v t) := by
  unfold memWrite
  cases slotOf off with
  | a i => simpa
  | b i => simpa
  | r i => simpa
  | cmd => exact executeCommand_public v h
  | status => simp [h]
  | reserved => simpa

/-- An acknowledgement adds nothing to what its write shows. -/
theorem acknowledge_public {q r : Result} (h : publicOutcome q = publicOutcome r) :
    publicOutcome (acknowledge q) = publicOutcome (acknowledge r) := by
  rcases publicOutcome_eq_cases h with ⟨u, v, rfl, rfl, huv⟩ | ⟨f, rfl, rfl⟩ | ⟨x, rfl, rfl⟩
  · simp [huv]
  · rfl
  · rfl

/-! ### Transactions -/

/-- A transaction without the data it writes to an operand register. -/
def Transaction.publicView (x : Transaction) : Transaction :=
  match x.req with
  | .rd => x
  | .wr v => { x with req := .wr (if (slotOf x.off).secret then 0 else v) }

/-- The public part of a statement that is a transaction is the transaction's. -/
theorem Stmt.publicView_txn (x : Transaction) : (Stmt.txn x).publicView = .txn x.publicView := by
  obtain ⟨off, size, req⟩ := x
  cases req <;> rfl

/-- A refused transaction shows the same, whatever the operands. -/
theorem raiseBusError_public (h : Config.BusErrHandling) (x : Transaction) {s t : State}
    (hst : s.publicView = t.publicView) :
    publicOutcome (raiseBusError h x s) = publicOutcome (raiseBusError h x t) := by
  cases h with
  | hostFault => rfl
  | ignored => simp [raiseBusError, hst]

/-- A performed transaction shows the same, whatever the operands. -/
theorem perform_public (x : Transaction) {s t : State} (h : s.publicView = t.publicView) :
    publicOutcome (perform x s) = publicOutcome (perform x t) := by
  unfold perform
  cases x.req with
  | rd => simp [Response.publicView, h]
  | wr v => exact acknowledge_public (memWrite_public x.off v h)

/-- The data written to an operand register or to R shows nowhere. -/
theorem transact_publicView (h : Config.BusErrHandling) (x : Transaction) (s : State) :
    publicOutcome (transact h x s) = publicOutcome (transact h x.publicView s) := by
  obtain ⟨off, size, req⟩ := x
  cases req with
  | rd => rfl
  | wr v =>
    cases hs : (slotOf off).secret with
    | false => simp [Transaction.publicView, hs]
    | true =>
      have hperform (w : Word) : publicOutcome (perform ⟨off, size, .wr w⟩ s) =
          publicOutcome (acknowledge (.next s)) :=
        acknowledge_public (memWrite_secret hs w s)
      simp only [Transaction.publicView, hs, if_true, transact]
      split_ifs with hv hz hz
      · rw [hperform, hperform]
      · exact absurd hv hz
      · exact absurd hz hv
      · rfl

/-- Transactions that differ only in operands written show the same. -/
theorem transact_public (h : Config.BusErrHandling) {x y : Transaction} (hxy : x.publicView = y.publicView)
    {s t : State} (hst : s.publicView = t.publicView) :
    publicOutcome (transact h x s) = publicOutcome (transact h y t) := by
  rw [transact_publicView h x, transact_publicView h y, hxy]
  unfold transact
  split_ifs
  · exact perform_public _ hst
  · exact raiseBusError_public h _ hst

/-- What a host polls outside the operands and R is the same. -/
theorem readData_public {off : Offset} (hoff : (slotOf off).secret = false) {s t : State}
    (h : s.publicView = t.publicView) : readData (readOf off) s = readData (readOf off) t :=
  if_congr Iff.rfl (memRead_public off s t (congrArg PublicView.status h) hoff) rfl

/-! ### Steps -/

/-- Scripts with the same public part begin with the same poll, or with transactions that differ only in operands
written. -/
theorem script_public_cases {p q : List Stmt} (h : p.map Stmt.publicView = q.map Stmt.publicView) :
    (p = [] ∧ q = []) ∨
    ∃ p' q', p'.map Stmt.publicView = q'.map Stmt.publicView ∧
      ((∃ x y, p = .txn x :: p' ∧ q = .txn y :: q' ∧ x.publicView = y.publicView) ∨
      ∃ off mask val, p = .poll off mask val :: p' ∧ q = .poll off mask val :: q') := by
  cases p with
  | nil => exact .inl ⟨rfl, (List.map_eq_nil_iff.1 h.symm)⟩
  | cons a p' =>
    cases q with
    | nil => cases h
    | cons b q' =>
      rw [List.map_cons, List.map_cons, List.cons.injEq] at h
      obtain ⟨hab, hrest⟩ := h
      refine .inr ⟨p', q', hrest, ?_⟩
      cases a with
      | txn x =>
        rw [Stmt.publicView_txn] at hab
        cases b with
        | txn y =>
          rw [Stmt.publicView_txn] at hab
          exact .inl ⟨x, y, rfl, rfl, Stmt.txn.inj hab⟩
        | poll off mask val => cases hab
      | poll off mask val =>
        cases b with
        | txn y => rw [Stmt.publicView_txn] at hab; cases hab
        | poll off' mask' val' => cases hab; exact .inr ⟨off, mask, val, rfl, rfl⟩

/-- The HOST's step shows the same, whatever the operands, where its own polls do not read them (R128). -/
theorem hostStep_public (h : Config.BusErrHandling) {s t : State} (hst : s.publicView = t.publicView)
    (hp : ∀ x ∈ s.script, x.pollsPublic = true) :
    publicOutcome (hostStep h s) = publicOutcome (hostStep h t) := by
  have hscript : s.script.map Stmt.publicView = t.script.map Stmt.publicView := congrArg PublicView.script hst
  obtain ⟨hs, ht⟩ | ⟨p', q', hrest, ⟨x, y, hs, ht, hxy⟩ | ⟨off, mask, val, hs, ht⟩⟩ := script_public_cases hscript
  · rw [hostStep_of_script_nil h s hs, hostStep_of_script_nil h t ht]
    exact congrArg Host.Outcome.next hst
  · simp only [hostStep, hs, ht]
    exact transact_public h hxy (by simp [hst, hrest])
  · have hpoll : (!(slotOf off).secret) = true := hp (.poll off mask val) (hs ▸ List.mem_cons_self)
    have hoff : (slotOf off).secret = false := by simpa using hpoll
    simp only [hostStep, hs, ht, readData_public hoff hst]
    split_ifs
    · exact transact_public h rfl (by simp [hst, hrest])
    · exact transact_public h rfl hst

/-- The ENGINE's step shows the same, whatever the operands: it completes in both states or in none. -/
theorem engineStep_public {s t : State} (h : s.publicView = t.publicView) :
    (engineStep s).publicView = (engineStep t).publicView := by
  have hop : s.latch.map Latch.op = t.latch.map Latch.op := congrArg PublicView.op h
  unfold engineStep
  cases hs : s.latch with
  | none =>
    cases ht : t.latch with
    | none => exact h
    | some m => simp [hs, ht] at hop
  | some l =>
    cases ht : t.latch with
    | none => simp [hs, ht] at hop
    | some m => simp [h]

/-- A turn shows the same, whatever the operands. -/
theorem takeTurn_public (h : Config.BusErrHandling) (x : Turn) {s t : State} (hst : s.publicView = t.publicView)
    (hp : ∀ x ∈ s.script, x.pollsPublic = true) :
    publicOutcome (takeTurn h x s) = publicOutcome (takeTurn h x t) := by
  have hreset : s.resetAsserted = t.resetAsserted := congrArg PublicView.resetAsserted hst
  have hstay : publicOutcome (.next s) = publicOutcome (.next t) := congrArg Host.Outcome.next hst
  cases x with
  | host =>
    simp only [takeTurn, hreset]
    split_ifs
    · exact hstay
    · exact hostStep_public h hst hp
  | engine =>
    simp only [takeTurn, hreset]
    split_ifs
    · exact hstay
    · exact congrArg Host.Outcome.next (engineStep_public hst)
  | assertReset => simp only [takeTurn, publicOutcome_next, withResetAsserted_publicView, resetBlock_publicView, hst]
  | releaseReset => simp [takeTurn, hst]

/-- Who moves next does not depend on the operands. -/
theorem nextTurn_public {s t : State} (h : s.publicView = t.publicView) : nextTurn s = nextTurn t := by
  have hturns : s.turns = t.turns := congrArg PublicView.turns h
  have hop : s.latch.map Latch.op = t.latch.map Latch.op := congrArg PublicView.op h
  have hlatch : s.latch.isSome = t.latch.isSome := by
    rw [← Option.isSome_map (f := Latch.op), hop, Option.isSome_map]
  simp only [nextTurn, defaultTurn, hturns, hlatch]

/-- A step shows the same, whatever the operands. -/
theorem step_public {s t : State} (h : s.publicView = t.publicView) (hp : ∀ x ∈ s.script, x.pollsPublic = true) :
    publicOutcome (step s) = publicOutcome (step t) := by
  rw [step, step, stepUnder_eq, stepUnder_eq, nextTurn_public h]
  exact takeTurn_public _ _ (by simp [h]) hp

/-- A step keeps that the host's polls are public: it leaves the script or takes its first statement. -/
theorem pollsPublic_of_step {s t : State} (h : step s = .next t) (hp : ∀ x ∈ s.script, x.pollsPublic = true) :
    ∀ x ∈ t.script, x.pollsPublic = true := by
  intro x hx
  rcases (step_script_turns h).1 with e | e <;> rw [e] at hx
  · exact hp x hx
  · exact hp x (List.mem_of_mem_tail hx)

/-- Settles O55, by induction on the number of steps: the two runs go on, or stop, together. -/
theorem timingIsIndependentOfOperands : Obligations.TimingIsIndependentOfOperands := by
  intro n
  induction n with
  | zero => exact fun s t h _ => congrArg Host.Outcome.next h
  | succ n ih =>
    intro s t h hp
    rw [runSteps_succ, runSteps_succ]
    rcases publicOutcome_eq_cases (step_public h hp) with ⟨u, v, hs, ht, huv⟩ | ⟨f, hs, ht⟩ | ⟨x, hs, ht⟩ <;>
      rw [hs, ht]
    exact ih u v huv (pollsPublic_of_step hs hp)

end Sys2Proof.Machine
end

section
/-! PROOFS. Modular addition and subtraction (R73, R74): a result is canonical, so it is known by its residue, and the
residues mod P are a ring. -/

namespace Sys2Proof.Machine

/-- The prime as the number R7 gives. -/
theorem P_eq : Config.P = 2 ^ 255 - 19 := rfl

/-! ### Canonical results -/

/-- A sum is canonical (R73, R80). -/
theorem modAdd_lt (a b : Value) : (modAdd a b).toNat < Config.P := result_lt ⟨.add, a, b⟩

/-- A difference is canonical (R74, R80). -/
theorem modSub_lt (a b : Value) : (modSub a b).toNat < Config.P := result_lt ⟨.sub, a, b⟩

/-- Bit 255 of a canonical value is 0. -/
theorem getLsbD_255_of_lt {v : Value} (h : v.toNat < Config.P) : v.getLsbD 255 = false :=
  Nat.testBit_lt_two_pow (h.trans P_lt)

/-- Settles O9: the exact sum reduced is canonical. -/
theorem modAddIsTheExactSumReduced : Obligations.ModAddIsTheExactSumReduced := fun a b =>
  ⟨modAdd_toNat a b, getLsbD_255_of_lt (modAdd_lt a b)⟩

/-- Settles O10: the exact difference reduced is canonical. -/
theorem modSubIsTheExactDifferenceReduced : Obligations.ModSubIsTheExactDifferenceReduced :=
  ⟨fun a b => ⟨modSub_toNat a b, getLsbD_255_of_lt (modSub_lt a b)⟩, by decide⟩

/-! ### Residues -/

/-- The canonical value of an operand. -/
abbrev residue (a : Value) : Value := BitVec.ofNat 256 (a.toNat % Config.P)

/-- A residue fits 256 bits. -/
theorem residue_toNat (a : Value) : (residue a).toNat = a.toNat % Config.P := by
  have hlt := Nat.mod_lt a.toNat P_pos
  have := P_lt
  rw [residue, BitVec.toNat_ofNat]
  exact Nat.mod_eq_of_lt (by omega)

/-- A residue is canonical. -/
theorem residue_lt (a : Value) : (residue a).toNat < Config.P := residue_toNat a ▸ Nat.mod_lt _ P_pos

/-- The class of an operand mod P. -/
def modP (a : Value) : ZMod Config.P := (a.toNat : ZMod Config.P)

/-- Canonical values are equal when they are equal mod P. -/
theorem eq_of_modP_eq {u v : Value} (hu : u.toNat < Config.P) (hv : v.toNat < Config.P) (h : modP u = modP v) :
    u = v := by
  have hmod := (ZMod.natCast_eq_natCast_iff' _ _ _).1 h
  rw [Nat.mod_eq_of_lt hu, Nat.mod_eq_of_lt hv] at hmod
  exact BitVec.eq_of_toNat_eq hmod

theorem modP_zero : modP 0 = 0 := by simp [modP]

@[simp] theorem modP_residue (a : Value) : modP (residue a) = modP a := by
  rw [modP, residue_toNat, ZMod.natCast_mod, modP]

@[simp] theorem modP_modAdd (a b : Value) : modP (modAdd a b) = modP a + modP b := by
  rw [modP, modAdd_toNat, ZMod.natCast_mod, Nat.cast_add, modP, modP]

@[simp] theorem modP_modSub (a b : Value) : modP (modSub a b) = modP a - modP b := by
  rw [modP, ← Int.cast_natCast, modSub_toNat, ZMod.intCast_mod, Int.cast_sub, Int.cast_natCast, Int.cast_natCast,
    modP, modP]

/-- Settles O12: the residues have the classes of the operands, and 3P exceeds 2^256. -/
theorem nonCanonicalOperandsCountAsResidues : Obligations.NonCanonicalOperandsCountAsResidues := by
  intro a b
  refine ⟨eq_of_modP_eq (modAdd_lt _ _) (modAdd_lt (residue a) (residue b)) (by simp),
    eq_of_modP_eq (modSub_lt _ _) (modSub_lt (residue a) (residue b)) (by simp), ?_⟩
  have := a.isLt
  have := P_eq
  omega

/-- The difference of an operand with itself is 0 (R83, R89). -/
theorem modSub_self (a : Value) : modSub a a = 0 := eq_of_modP_eq (modSub_lt a a) P_pos <| by
  rw [modP_modSub, sub_self, modP_zero]

/-- Settles O13: each law holds in the ring of the residues, and both its sides are canonical. -/
theorem fieldLawsOfTheAdder : Obligations.FieldLawsOfTheAdder := by
  refine fun a b c => ⟨eq_of_modP_eq (modAdd_lt _ _) (modAdd_lt _ _) ?_,
    eq_of_modP_eq (modAdd_lt _ _) (modAdd_lt _ _) ?_, eq_of_modP_eq (modSub_lt _ _) (modAdd_lt _ _) ?_,
    modSub_self a, eq_of_modP_eq (modAdd_lt _ _) (residue_lt a) ?_,
    eq_of_modP_eq (modAdd_lt _ _) (residue_lt a) ?_, eq_of_modP_eq (modSub_lt _ _) (residue_lt a) ?_⟩
  · simp only [modP_modAdd]; ring
  · simp only [modP_modAdd]; ring
  · simp only [modP_modAdd, modP_modSub, modP_zero]; ring
  · simp only [modP_modAdd, modP_modSub, modP_residue]; ring
  · simp only [modP_modAdd, modP_zero, modP_residue]; ring
  · simp only [modP_modSub, modP_zero, modP_residue]; ring

/-! ### Bit 255 and the corner cases -/

/-- 2^255 counts 19 mod P. -/
theorem two_pow_255_eq : 2 ^ 255 = Config.P + 19 := by rw [P_eq]; norm_num

/-- A value with bit 255 set, as an addend to any number (R76). -/
theorem add_mod_of_bit255 {n : Nat} (h : 2 ^ 255 ≤ n) (x : Nat) :
    (n + x) % Config.P = (n - 2 ^ 255 + 19 + x) % Config.P := by
  have e : n + x = n - 2 ^ 255 + 19 + x + Config.P := by have := two_pow_255_eq; omega
  rw [e, Nat.add_mod_right]

/-- Settles O11: a set bit 255 is 2^255 = P + 19 of the operand's value, wherever the operand stands. -/
theorem bit255IsNotMasked : Obligations.Bit255IsNotMasked := by
  refine ⟨fun v x hv => ?_, by decide, by decide, by decide, by decide,
    fun w => valueOf_getLsbD w 7 31 (by decide) (by decide)⟩
  have hle : 2 ^ 255 ≤ v.toNat := Nat.ge_two_pow_of_testBit hv
  have hP : (2 : Int) ^ 255 = Config.P + 19 := by exact_mod_cast two_pow_255_eq
  refine ⟨hle, ?_, ?_, ?_, ?_⟩
  · rw [modAdd_toNat, add_mod_of_bit255 hle]
  · rw [modAdd_toNat, Nat.add_comm, add_mod_of_bit255 hle, Nat.add_comm]
  · rw [modSub_toNat, hP, ← Int.sub_emod_right]
    congr 1; ring
  · rw [modSub_toNat, hP, ← Int.add_emod_right]
    congr 1; ring

/-- A negative difference above -P is P less its size (R74, R83). -/
theorem modSub_toNat_of_lt {a b : Value} (hab : a.toNat < b.toNat) (hlt : b.toNat - a.toNat < Config.P) :
    (modSub a b).toNat = Config.P - (b.toNat - a.toNat) := by
  have hmod : ((a.toNat : Int) - b.toNat) % Config.P = a.toNat - b.toNat + Config.P := by
    rw [← Int.add_emod_right]
    exact Int.emod_eq_of_lt (by omega) (by omega)
  have := modSub_toNat a b
  omega

/-- Settles O14: the general corners from the exact sum and difference, the six concrete ones by evaluation. -/
theorem cornerCasesOfAddAndSub : Obligations.CornerCasesOfAddAndSub := by
  refine ⟨fun a => ?_, fun a b h => BitVec.eq_of_toNat_eq ?_, fun a b => modSub_toNat_of_lt, modSub_self,
    by decide, by decide, by decide, by decide, by decide, by decide⟩
  · rw [modAdd_toNat, Nat.two_mul]
  · rw [modAdd_toNat, h, Nat.mod_self]; rfl

end Sys2Proof.Machine
end

section
/-! PROOFS. The commands at the write to CMD (R82 to R87): what each does and leaves, and the ENGINE's completion. -/

namespace Sys2Proof.Machine

/-- A command is NOP, or it starts an operation. -/
theorem Instr.eq_nop_or_op (i : Instr) : i = .nop ∨ ∃ op : Op, i = op.instr := by
  cases i with
  | nop => exact .inl rfl
  | add => exact .inr ⟨.add, rfl⟩
  | sub => exact .inr ⟨.sub, rfl⟩

/-- Settles O32: NOP keeps the state, and ADD and SUB start their operation. -/
theorem everyCommandCompletes : Obligations.EveryCommandCompletes := by
  intro i s
  obtain rfl | ⟨op, rfl⟩ := Instr.eq_nop_or_op i
  · exact ⟨s, exec_nop s⟩
  · exact ⟨start op s, exec_op op s⟩

/-- A write of NOP's word to CMD does nothing (R85). -/
theorem executeCommand_encode_nop (s : State) : executeCommand (encode .nop) s = .next s :=
  executeCommand_of_decode_some (decode_encode .nop) s

/-- Settles O25: NOP's meaning is the state itself, and the word 0 is NOP's. -/
theorem nopHasNoEffect : Obligations.NopHasNoEffect := fun s =>
  ⟨exec_nop s, (memWrite_offCMD _ s).trans (executeCommand_encode_nop s)⟩

/-- While BUSY = 0 an operation's command is accepted (R84), and so is the write of its word to CMD. -/
theorem exec_op_of_not_busy (op : Op) {s : State} (hb : s.status.busy = false) :
    exec op.instr s = .next (accept op s) ∧ memWrite offCMD (encode op.instr) s = exec op.instr s := by
  rw [memWrite_offCMD, executeCommand_encode_op, exec_op, start_of_not_busy op hb]
  exact ⟨rfl, rfl⟩

/-- Settles O26: acceptance for each of the two operations. -/
theorem acceptanceLatchesTheOperands : Obligations.AcceptanceLatchesTheOperands := fun _ hb =>
  ⟨exec_op_of_not_busy .add hb, exec_op_of_not_busy .sub hb⟩

/-- The dispatcher, one case for each line of the decode function (R67, R87). -/
theorem executeCommand_eq_ite (w : Word) (s : State) : executeCommand w s =
    if w = 0x00000000 then .next s
    else if w = 0x00000001 then .next (start .add s)
    else if w = 0x00000002 then .next (start .sub s)
    else .next (raiseIllegalCommand s) := by
  have hd := decodeReadsTheWholeWord w
  split_ifs at hd ⊢
  · exact executeCommand_of_decode_some hd s
  · exact executeCommand_of_decode_some hd s
  · exact executeCommand_of_decode_some hd s
  · exact executeCommand_of_decode_none hd s

/-- Settles O29: the two branches of `start` are those the dispatcher lists. -/
theorem commandsAreDispatched : Obligations.CommandsAreDispatched := fun s w => executeCommand_eq_ite w s

/-- Every slot but STATUS is read off A, B and R, or is 0 (R45). -/
theorem memRead_of_registers_eq {off : Offset} {s t : State} (hoff : slotOf off ≠ .status) (ha : t.a = s.a)
    (hb : t.b = s.b) (hr : t.r = s.r) : memRead off t = memRead off s := by
  unfold memRead
  cases hq : slotOf off with
  | a i => simp only [ha]
  | b i => simp only [hb]
  | r i => simp only [hr]
  | cmd => rfl
  | status => exact absurd hq hoff
  | reserved => rfl

/-- Settles O31: a command keeps the state, raises BusyCommand or is accepted. -/
theorem commandsFrame : Obligations.CommandsFrame := by
  intro i s t h
  obtain rfl | ⟨op, rfl⟩ := Instr.eq_nop_or_op i
  · cases h
    exact ⟨rfl, rfl, rfl, rfl, rfl, rfl, rfl, rfl, fun _ _ => rfl, fun _ => ⟨rfl, rfl⟩, fun hb => ⟨rfl, hb, rfl⟩,
      fun _ => rfl⟩
  · have hop : op.instr ≠ .nop := by cases op <;> decide
    rw [exec_op] at h
    cases h
    rcases start_cases op s with ⟨hb, e⟩ | ⟨hb, e⟩ <;> rw [e]
    · exact ⟨rfl, rfl, rfl, rfl, rfl, rfl, rfl, rfl, fun _ hoff => memRead_of_registers_eq hoff rfl rfl rfl,
        fun h => absurd h hop, fun _ => ⟨rfl, hb, rfl⟩, fun h => absurd (hb.symm.trans h) (by decide)⟩
    · exact ⟨rfl, rfl, rfl, rfl, rfl, rfl, rfl, rfl, fun _ hoff => memRead_of_registers_eq hoff rfl rfl rfl,
        fun h => absurd h hop, fun h => absurd (hb.symm.trans h) (by decide), fun _ => rfl⟩

/-! ### The completion -/

/-- The ENGINE completes the command in flight (R86). -/
theorem engineStep_of_latch_some {s : State} {l : Latch} (hl : s.latch = some l) : engineStep s = complete l s := by
  simp only [engineStep, hl]

/-- With nothing in flight the ENGINE has no step (R86). -/
theorem engineStep_of_latch_none {s : State} (hl : s.latch = none) : engineStep s = s := by
  simp only [engineStep, hl]

/-- The ENGINE's listed turn is the ENGINE's step. -/
theorem stepUnder_engine (h : Config.BusErrHandling) {s : State} {rest : List Turn} (ht : s.turns = .engine :: rest)
    (hr : s.resetAsserted = false) : stepUnder h s = .next (engineStep { s with turns := rest }) := by
  simp [stepUnder, ht, takeTurn, hr]

/-- Settles O34: the completion of the latched command, or no step. -/
theorem engineTurnCompletes : Obligations.EngineTurnCompletes := by
  intro h s rest ht hr
  rw [stepUnder_engine h ht hr]
  exact ⟨fun l hl => congrArg Host.Outcome.next (engineStep_of_latch_some (by exact hl)),
    fun hl => congrArg Host.Outcome.next (engineStep_of_latch_none (by exact hl))⟩

/-- A command accepted in `s` completes with the result of the operands in `s`, whatever happened to A and B since. -/
theorem engineStep_r_of_accepted {op : Op} {s t u : State} (hb : s.status.busy = false)
    (h : exec op.instr s = .next t) (hu : u.latch = t.latch) :
    valueOf (engineStep u).r = Latch.result ⟨op, valueOf s.a, valueOf s.b⟩ := by
  rw [(exec_op_of_not_busy op hb).1] at h
  cases h
  rw [engineStep_of_latch_some hu, complete_r, valueOf_wordsOf]

/-- Settles O30: the result of the operands at acceptance is the exact sum or difference reduced. -/
theorem commandComputesFromTheLatchedOperands : Obligations.CommandComputesFromTheLatchedOperands := by
  refine fun s t u hb => ⟨fun h hu => ?_, fun h hu => ?_⟩
  · rw [engineStep_r_of_accepted (op := .add) hb h hu]
    exact modAdd_toNat _ _
  · rw [engineStep_r_of_accepted (op := .sub) hb h hu]
    exact modSub_toNat _ _

end Sys2Proof.Machine
end

section
/-! PROOFS. The three errors (R96 to R101): what raises each, what it records, in which order they are checked, and how
the sticky flags are cleared (R104). -/

namespace Sys2Proof.Machine

/-! ### The two errors of a command -/

/-- While BUSY = 1 an operation's command is dropped with ERR_BUSY (R98), and so is the write of its word to CMD. -/
theorem exec_op_of_busy (op : Op) {s : State} (hb : s.status.busy = true) :
    exec op.instr s = .next (raiseBusyCommand s) ∧
      memWrite offCMD (encode op.instr) s = .next (raiseBusyCommand s) := by
  rw [memWrite_offCMD, executeCommand_encode_op, exec_op, start_of_busy op hb]
  exact ⟨rfl, rfl⟩

/-- Settles O27: the drop of each of the two operations. -/
theorem busyCommandIsDropped : Obligations.BusyCommandIsDropped := by
  intro s hb
  obtain ⟨hadd, hwadd⟩ := exec_op_of_busy .add hb
  obtain ⟨hsub, hwsub⟩ := exec_op_of_busy .sub hb
  exact ⟨hwadd, hwsub, hadd, hsub⟩

/-- A write of an illegal word to CMD raises IllegalCommand (R97). -/
theorem memWrite_offCMD_of_decode_none {w : Word} (hd : decode w = none) (s : State) :
    memWrite offCMD w s = .next (raiseIllegalCommand s) := by
  rw [memWrite_offCMD, executeCommand_of_decode_none hd]

/-- Settles O28: a word other than 0, 1 and 2 is no command's, so it is illegal. -/
theorem illegalCommandSetsOnlyItsFlag : Obligations.IllegalCommandSetsOnlyItsFlag := by
  intro s w hnop hadd hsub
  refine memWrite_offCMD_of_decode_none ((decode_eq_none_iff_ne_encode w).2 fun i => ?_) s
  cases i with
  | nop => exact hnop
  | add => exact hadd
  | sub => exact hsub

/-! ### The sticky flags -/

/-- IllegalCommand raised again changes nothing (R97, R104). -/
theorem raiseIllegalCommand_of_errIllegal {s : State} (h : s.status.errIllegal = true) :
    raiseIllegalCommand s = s := by
  rw [raiseIllegalCommand, Status.raisedIllegal, ← h]

/-- BusyCommand raised again changes nothing (R98, R104). -/
theorem raiseBusyCommand_of_errBusy {s : State} (h : s.status.errBusy = true) : raiseBusyCommand s = s := by
  rw [raiseBusyCommand, Status.raisedBusy, ← h]

/-- Settles O23: bits 2 and 3 of the word written select the flags cleared, and acceptance depends on BUSY only. -/
theorem flagsClearByWriteAndNeverBlock : Obligations.FlagsClearByWriteAndNeverBlock := by
  intro s
  have hwrite (v : Word) : memWrite 0x64 v s = .next { s with status := { s.status with
      errIllegal := if v.getLsbD 2 then false else s.status.errIllegal
      errBusy := if v.getLsbD 3 then false else s.status.errBusy } } := by
    obtain ⟨-, -, hstatus, -⟩ := writeActsOnTheSlot s v
    exact hstatus
  exact ⟨hwrite 0x4, hwrite 0x8, hwrite 0xC, raiseIllegalCommand_of_errIllegal, raiseBusyCommand_of_errBusy,
    fun hb op _ _ => (exec_op_of_not_busy op (by exact hb)).1⟩

/-! ### The table of causes -/

/-- The two operations, listed. -/
theorem exists_op_iff (p : Op → Prop) : (∃ op, p op) ↔ p .add ∨ p .sub := by
  constructor
  · rintro ⟨op, h⟩
    cases op with
    | add => exact .inl h
    | sub => exact .inr h
  · exact fun h => h.elim (fun h => ⟨.add, h⟩) fun h => ⟨.sub, h⟩

/-- A word written to CMD raises IllegalCommand exactly when it is illegal, whatever BUSY is (R97, R101). -/
theorem commandError_eq_illegalCommand_iff (w : Word) (busy : Bool) :
    commandError w busy = some .illegalCommand ↔ decode w = none := by
  unfold commandError
  cases decode w with
  | none => simp
  | some i => cases i <;> cases busy <;> simp

/-- A word written to CMD raises BusyCommand exactly when it is an operation's and BUSY = 1 (R98). -/
theorem commandError_eq_busyCommand_iff (w : Word) (busy : Bool) :
    commandError w busy = some .busyCommand ↔ busy = true ∧ ∃ op : Op, w = encode op.instr := by
  simp only [exists_op_iff, Op.instr, ← decode_eq_some_iff, commandError]
  cases decode w with
  | none => simp
  | some i => cases i <;> simp

/-- A word written to CMD raises no BusError (R101). -/
theorem commandError_ne_busError (w : Word) (busy : Bool) : commandError w busy ≠ some .busError := by
  unfold commandError
  cases decode w with
  | none => simp
  | some i => cases i <;> cases busy <;> simp

/-- A transaction the block does not perform raises BusError, before all else (R101). -/
theorem errorOf_of_not_performable {t : Transaction} (hp : performable t = false) (s : State) :
    errorOf t s = some .busError := by
  simp [errorOf, hp]

/-- An aligned write raises an error only at CMD, the error of its word (R96). -/
theorem errorOf_writeOf {off : Offset} (ha : aligned off = true) (w : Word) (s : State) :
    errorOf (writeOf off w) s = if slotOf off = .cmd then commandError w s.status.busy else none := by
  rw [errorOf, performable_writeOf, if_pos ha]
  rfl

/-- A transaction that raises an error is not performed, or it is the write to CMD of a word that raises it (R96). -/
theorem errorOf_eq_some_cases {t : Transaction} {s : State} {c : Cause} (h : errorOf t s = some c) :
    (performable t = false ∧ c = .busError) ∨ ∃ w, t = writeOf offCMD w ∧ commandError w s.status.busy = some c := by
  cases hp : performable t with
  | false =>
    rw [errorOf_of_not_performable hp] at h
    cases h
    exact .inl ⟨rfl, rfl⟩
  | true =>
    obtain ht | ⟨w, ht⟩ := performable_cases t hp
    · have hq : t.req = .rd := by rw [ht]; rfl
      simp [errorOf, hp, hq] at h
    · have ha : aligned t.off = true := by rwa [ht, performable_writeOf] at hp
      rw [ht, errorOf_writeOf ha] at h
      obtain ⟨-, -, -, hcmd, -⟩ := aligned_slot t.off ha
      split_ifs at h with hslot
      exact .inr ⟨w, hcmd hslot ▸ ht, h⟩

/-- BusError is the error of the transactions that the block does not perform (R99, R101). -/
theorem errorOf_eq_busError_iff (t : Transaction) (s : State) :
    errorOf t s = some .busError ↔ performable t = false := by
  refine ⟨fun h => ?_, fun hp => errorOf_of_not_performable hp s⟩
  obtain ⟨hp, -⟩ | ⟨w, -, hw⟩ := errorOf_eq_some_cases h
  · exact hp
  · exact absurd hw (commandError_ne_busError w _)

/-- The other two errors are those of the words written to CMD (R97, R98). -/
theorem errorOf_eq_some_iff {c : Cause} (hc : c ≠ .busError) (t : Transaction) (s : State) :
    errorOf t s = some c ↔ ∃ w, t = writeOf offCMD w ∧ commandError w s.status.busy = some c := by
  constructor
  · intro h
    obtain ⟨-, e⟩ | hw := errorOf_eq_some_cases h
    · exact absurd e hc
    · exact hw
  · rintro ⟨w, rfl, hw⟩
    rw [errorOf_writeOf aligned_offCMD, if_pos slotOf_offCMD, hw]

/-- IllegalCommand is the error of an illegal word written to CMD (R97). -/
theorem errorOf_eq_illegalCommand_iff (t : Transaction) (s : State) :
    errorOf t s = some .illegalCommand ↔ ∃ w, t = writeOf offCMD w ∧ decode w = none := by
  simp only [errorOf_eq_some_iff (c := .illegalCommand) (by decide), commandError_eq_illegalCommand_iff]

/-- BusyCommand is the error of an operation's word written to CMD while BUSY = 1 (R98). -/
theorem errorOf_eq_busyCommand_iff (t : Transaction) (s : State) :
    errorOf t s = some .busyCommand ↔ s.status.busy = true ∧ ∃ op : Op, t = writeOf offCMD (encode op.instr) := by
  simp only [errorOf_eq_some_iff (c := .busyCommand) (by decide), commandError_eq_busyCommand_iff]
  constructor
  · rintro ⟨w, rfl, hb, op, rfl⟩
    exact ⟨hb, op, rfl⟩
  · rintro ⟨hb, op, rfl⟩
    exact ⟨_, rfl, hb, op, rfl⟩

/-! ### What each error records -/

/-- An illegal word written to CMD is acknowledged with IllegalCommand raised (R97, log 5). -/
theorem transact_of_decode_none (h : Config.BusErrHandling) {w : Word} (hd : decode w = none) (s : State) :
    transact h (writeOf offCMD w) s = .next (respond .wrOk (raiseIllegalCommand s)) := by
  rw [transact_writeOf h offCMD aligned_offCMD, memWrite_offCMD_of_decode_none hd, acknowledge_next]

/-- A dropped command is acknowledged with BusyCommand raised (R98, log 5). -/
theorem transact_of_busy (h : Config.BusErrHandling) (op : Op) {s : State} (hb : s.status.busy = true) :
    transact h (writeOf offCMD (encode op.instr)) s = .next (respond .wrOk (raiseBusyCommand s)) := by
  rw [transact_writeOf h offCMD aligned_offCMD, (exec_op_of_busy op hb).2, acknowledge_next]

/-- A transaction that raises no error answers a next state and sets no error flag (R96). -/
theorem transact_of_errorOf_none {t : Transaction} {s : State} (he : errorOf t s = none) (h : Config.BusErrHandling) :
    ∃ s', transact h t s = .next s' ∧ (s'.status.errIllegal = true → s.status.errIllegal = true) ∧
      (s'.status.errBusy = true → s.status.errBusy = true) := by
  have hno (c : Cause) : errorOf t s ≠ some c := by simp [he]
  have hp : performable t = true := by
    rw [← Bool.not_eq_false, ← errorOf_eq_busError_iff t s]
    exact hno .busError
  obtain ⟨s', hn⟩ := transact_performable h t s hp
  refine ⟨s', hn, ?_⟩
  rcases transact_errorFlags hn with ⟨hi, hb⟩ | ⟨w, ht, hd, -⟩ | ⟨op, ht, hbusy, -⟩ | ⟨v, -, hs⟩
  · simp [hi, hb]
  · exact absurd ((errorOf_eq_illegalCommand_iff t s).2 ⟨w, ht, hd⟩) (hno .illegalCommand)
  · exact absurd ((errorOf_eq_busyCommand_iff t s).2 ⟨hbusy, op, ht⟩) (hno .busyCommand)
  · simp +contextual [hs]

/-- Settles O19, one lemma for each cause and one for each effect. -/
theorem errorsAreRecordedAsListed : Obligations.ErrorsAreRecordedAsListed := by
  refine ⟨rfl, rfl, rfl, fun s t => ⟨errorOf_eq_illegalCommand_iff t s, ?_, ?_, fun he h => ?_, fun he h => ?_,
    fun he => ?_, transact_of_errorOf_none⟩⟩
  · rw [errorOf_eq_busyCommand_iff, exists_op_iff]
    exact Iff.rfl
  · rw [errorOf_eq_busError_iff, performable_eq_false]
  · obtain ⟨w, rfl, hd⟩ := (errorOf_eq_illegalCommand_iff t s).1 he
    exact transact_of_decode_none h hd s
  · obtain ⟨hb, op, rfl⟩ := (errorOf_eq_busyCommand_iff t s).1 he
    exact transact_of_busy h op hb
  · exact transact_of_not_performable .ignored ((errorOf_eq_busError_iff t s).1 he) s

/-! ### The order of the checks -/

/-- A transaction that the block does not perform changes the response at most (R99, R101). -/
theorem eq_respond_of_not_performable {h : Config.BusErrHandling} {t : Transaction} {s s' : State}
    (hp : performable t = false) (hn : transact h t s = .next s') : s' = respond (errorResponse t) s := by
  rw [transact_of_not_performable h hp] at hn
  cases h with
  | hostFault => cases hn
  | ignored => cases hn; rfl

/-- A transaction leaves one of the two error flags, or clears flags only: it never sets both (R101). -/
theorem transact_sets_at_most_one_flag {h : Config.BusErrHandling} {t : Transaction} {s s' : State}
    (hn : transact h t s = .next s') :
    (s'.status.errIllegal = true → s.status.errIllegal = true) ∨
      (s'.status.errBusy = true → s.status.errBusy = true) := by
  rcases transact_errorFlags hn with ⟨hi, -⟩ | ⟨w, -, -, hs⟩ | ⟨op, -, -, hs⟩ | ⟨v, -, hs⟩
  · exact .inl (by simp [hi])
  · exact .inr (by simp [hs])
  · exact .inl (by simp [hs])
  · exact .inl (by simp +contextual [hs])

/-- Settles O20: a refused transaction is not decoded, and an illegal word is found before BUSY is looked at. -/
theorem errorsAreCheckedInOrder : Obligations.ErrorsAreCheckedInOrder := by
  refine fun h s s' t hn => ⟨fun ht => ?_, fun v ht hd => ?_, ?_⟩
  · cases eq_respond_of_not_performable ((performable_eq_false t).2 ht) hn
    exact ⟨rfl, rfl⟩
  · subst ht
    cases (transact_of_decode_none h hd s).symm.trans hn
    exact ⟨rfl, rfl⟩
  · rintro ⟨hi, hi', hb, hb'⟩
    rcases transact_sets_at_most_one_flag hn with hkeep | hkeep
    · exact absurd (hkeep hi') (by simp [hi])
    · exact absurd (hkeep hb') (by simp [hb])

end Sys2Proof.Machine
end

section
/-! PROOFS. The turns that pass: while reset is asserted (R117, log 6) and with nothing to do (R119, log 14); and a
command right after reset (R118, R119). -/

namespace Sys2Proof.Machine

/-! ### Turns that pass -/

/-- At an idle step the turn passes, and nothing else changes. -/
theorem stepUnder_of_idle (h : Config.BusErrHandling) {s : State} (he : eventOf s = .idle) :
    stepUnder h s = .next (turnTaken s) := by
  rcases stepUnder_event h s with ⟨-, k⟩ | ⟨e, -⟩ | ⟨e, -⟩ | ⟨l, -, -, e, -⟩ | ⟨x, script, -, e, -⟩
  · exact k
  all_goals rw [he] at e; cases e

/-- While reset is asserted neither agent has a step (R117, log 6). -/
theorem eventOf_of_resetAsserted {s : State} (hr : s.resetAsserted = true)
    (hn : nextTurn s = .host ∨ nextTurn s = .engine) : eventOf s = .idle := by
  rcases hn with hn | hn <;> simp [eventOf, hn, hr]

/-- With an empty script and no command in flight neither agent has a step (R86, log 14). -/
theorem eventOf_of_nothing_to_do {s : State} (hs : s.script = []) (hl : s.latch = none)
    (hn : nextTurn s = .host ∨ nextTurn s = .engine) : eventOf s = .idle := by
  rcases hn with hn | hn <;> simp [eventOf, hn, hs, hl]

/-- Where no turn is listed one of the agents has the turn (log 2). -/
theorem nextTurn_of_no_turns {s : State} (ht : s.turns = []) : nextTurn s = .host ∨ nextTurn s = .engine := by
  simp only [nextTurn, ht, defaultTurn]
  cases s.latch.isSome with
  | true => exact .inr rfl
  | false => exact .inl rfl

/-- The first turn listed is the next. -/
theorem nextTurn_of_turns {s : State} {t : Turn} {rest : List Turn} (ht : s.turns = t :: rest) : nextTurn s = t := by
  simp only [nextTurn, ht]

/-- The turn listed first, taken. -/
theorem turnTaken_of_turns {s : State} {t : Turn} {rest : List Turn} (ht : s.turns = t :: rest) :
    turnTaken s = { s with turns := rest } := by
  rw [turnTaken, ht, List.tail_cons]

/-- Where no turn is listed none is taken. -/
theorem turnTaken_of_no_turns {s : State} (ht : s.turns = []) : turnTaken s = s := by
  rw [turnTaken, ht, List.tail_nil, ← ht]

/-- Settles O39: a turn of either agent, listed or by default, is idle while reset is asserted. -/
theorem noAgentMovesDuringReset : Obligations.NoAgentMovesDuringReset := by
  refine fun h s hr => ⟨fun ht => ?_, fun t rest hagent ht => ?_⟩
  · rw [stepUnder_of_idle h (eventOf_of_resetAsserted hr (nextTurn_of_no_turns ht)), turnTaken_of_no_turns ht]
  · rw [← nextTurn_of_turns ht] at hagent
    rw [stepUnder_of_idle h (eventOf_of_resetAsserted hr hagent), turnTaken_of_turns ht]

/-! ### A command right after reset -/

/-- A command written while BUSY = 0 and completed at the next turn (R84, R86). -/
theorem runSteps_command_completion {s : State} {op : Op} {script : List Stmt} {turns : List Turn}
    (hb : s.status.busy = false) (hr : s.resetAsserted = false)
    (hs : s.script = wr offCMD (encode op.instr) :: script) (ht : s.turns = .host :: .engine :: turns) :
    ∃ t, runSteps 2 s = .next t ∧ t.r = wordsOf (Latch.result ⟨op, valueOf s.a, valueOf s.b⟩) ∧
      t.status = s.status.accepted.completed := by
  have hwrite := step_command s (nextTurn_of_turns ht) hr hs
  rw [start_of_not_busy op (by exact hb)] at hwrite
  refine ⟨_, runSteps_two hwrite (step_engine (nextTurn_of_turns (rest := turns) ?_) hr rfl), rfl, rfl⟩
  simp [ht]

/-- ADD and SUB on the operands of reset give zero (R119). -/
theorem wordsOf_result_zeroWords (op : Op) :
    wordsOf (Latch.result ⟨op, valueOf zeroWords, valueOf zeroWords⟩) = zeroWords := by
  have hresult : Latch.result ⟨op, valueOf zeroWords, valueOf zeroWords⟩ = valueOf zeroWords := by
    cases op <;> decide
  rw [hresult, wordsOf_valueOf]

/-- Settles O40: with nothing to do each turn is idle, and a command at once runs on the operands of reset. -/
theorem commandRightAfterReset : Obligations.CommandRightAfterReset := by
  refine ⟨fun t turns hagent => stepUnder_of_idle _ (eventOf_of_nothing_to_do rfl rfl hagent),
    fun i script turns hi => ?_⟩
  obtain ⟨op, rfl⟩ := (exists_op_iff fun op => i = op.instr).2 hi
  obtain ⟨t, hrun, hr, hstatus⟩ := runSteps_command_completion (op := op) (script := script) (turns := turns)
    (s := { State.reset with script := _, turns := _ }) rfl rfl rfl rfl
  exact ⟨t, hrun, hr.trans (wordsOf_result_zeroWords op), hstatus⟩

end Sys2Proof.Machine
end

section
/-! PROOFS. Reading after a write (R51, R126): a write of an operand word reaches one slot. -/

namespace Sys2Proof.Machine

/-- A read depends on the slot it reads only (R45). -/
theorem memRead_congr {off : Offset} {s t : State} (ha : ∀ i, slotOf off = .a i → t.a[i] = s.a[i])
    (hb : ∀ i, slotOf off = .b i → t.b[i] = s.b[i]) (hr : ∀ i, slotOf off = .r i → t.r[i] = s.r[i])
    (hs : slotOf off = .status → t.status = s.status) : memRead off t = memRead off s := by
  unfold memRead
  cases hq : slotOf off with
  | a i => exact ha i hq
  | b i => exact hb i hq
  | r i => exact hr i hq
  | cmd => rfl
  | status => exact congrArg statusWord (hs hq)
  | reserved => rfl

/-- Setting one word of a register leaves the other words. -/
theorem getElem_set_of_ne {i j : Fin 8} (h : i ≠ j) (w : Words) (v : Word) : (w.set i v)[j] = w[j] :=
  Vector.getElem_set_ne i.isLt j.isLt (Fin.val_ne_of_ne h)

/-- A write of a word of A leaves every other slot as it reads (R45, R46). -/
theorem memRead_writeA_of_ne {i : Fin 8} {off : Offset} (hoff : slotOf off ≠ .a i) (v : Word) (s : State) :
    memRead off (writeA i v s) = memRead off s :=
  memRead_congr (fun _ hj => getElem_set_of_ne (by rintro rfl; exact hoff hj) s.a v) (fun _ _ => rfl) (fun _ _ => rfl)
    (fun _ => rfl)

/-- A write of a word of B leaves every other slot as it reads (R45, R46). -/
theorem memRead_writeB_of_ne {i : Fin 8} {off : Offset} (hoff : slotOf off ≠ .b i) (v : Word) (s : State) :
    memRead off (writeB i v s) = memRead off s :=
  memRead_congr (fun _ _ => rfl) (fun _ hj => getElem_set_of_ne (by rintro rfl; exact hoff hj) s.b v) (fun _ _ => rfl)
    (fun _ => rfl)

/-- Settles O22: the word written is the one read at its offset, and no other slot holds it. -/
theorem readAfterWrite : Obligations.ReadAfterWrite := by
  refine fun i v s s' => ⟨fun hn => ?_, fun hn => ?_⟩
  · rw [memWrite_offA] at hn; cases hn
    exact ⟨by simp, fun off hoff => memRead_writeA_of_ne hoff v s⟩
  · rw [memWrite_offB] at hn; cases hn
    exact ⟨by simp, fun off hoff => memRead_writeB_of_ne hoff v s⟩

end Sys2Proof.Machine
end

section
/-! PROOFS. Who changes DONE, the operands and R (R18 to R20, R24), and the steps that change no register (R113). -/

namespace Sys2Proof.Machine

/-- Settles O45, one clause for each kind of event. -/
theorem doneChangesOnlyAsSaid : Obligations.DoneChangesOnlyAsSaid := by
  refine fun s t h => ⟨fun op ha => ?_, fun l he => ?_, fun he => ?_, fun ha hc hr => ?_⟩
  · obtain ⟨-, script, rfl⟩ := step_of_accepts h ha; rfl
  · obtain ⟨-, -, rfl⟩ := step_of_completion h he; exact ⟨rfl, rfl⟩
  · cases step_of_reset h he; rfl
  · obtain ⟨-, hdone, -, -⟩ := step_keeps h ha hc hr; exact hdone

/-- ADD and SUB, accepted or dropped, leave A and B. -/
theorem start_operands (op : Op) (s : State) : (start op s).a = s.a ∧ (start op s).b = s.b := by
  rcases start_cases op s with ⟨_, e⟩ | ⟨_, e⟩ <;> rw [e] <;> exact ⟨rfl, rfl⟩

/-- A transaction leaves A and B, or writes one word of one of them (R46). -/
theorem transact_operands {h : Config.BusErrHandling} {x : Transaction} {s s' : State}
    (hn : transact h x s = .next s') :
    (s'.a = s.a ∧ s'.b = s.b) ∨
    (∃ i v, x = writeOf (offA i) v ∧ s'.a = s.a.set i v ∧ s'.b = s.b) ∨
    (∃ i v, x = writeOf (offB i) v ∧ s'.a = s.a ∧ s'.b = s.b.set i v) := by
  obtain ⟨p, ⟨rfl, _⟩ | ⟨i, v, e, rfl⟩ | ⟨i, v, e, rfl⟩ | ⟨v, _, _, rfl⟩ | ⟨op, _, rfl⟩ | ⟨v, _, rfl⟩⟩ :=
    transact_effect hn
  · exact .inl ⟨rfl, rfl⟩
  · exact .inr (.inl ⟨i, v, e, rfl, rfl⟩)
  · exact .inr (.inr ⟨i, v, e, rfl, rfl⟩)
  · exact .inl ⟨rfl, rfl⟩
  · exact .inl (start_operands op s)
  · exact .inl ⟨rfl, rfl⟩

/-- Settles O48: of the steps other than reset only a transaction reaches A and B. -/
theorem operandsChangeOnlyByHostWrites : Obligations.OperandsChangeOnlyByHostWrites := by
  intro s t h hr
  rcases step_next h with ⟨_, rfl⟩ | ⟨_, rfl⟩ | ⟨e, _⟩ | ⟨l, _, _, _, rfl⟩ | ⟨x, script, _, he, _, ht⟩
  · exact ⟨.inl rfl, .inl rfl⟩
  · exact ⟨.inl rfl, .inl rfl⟩
  · exact absurd e hr
  · exact ⟨.inl rfl, .inl rfl⟩
  · rcases transact_operands ht with ⟨ha, hb⟩ | ⟨i, v, rfl, ha, hb⟩ | ⟨i, v, rfl, ha, hb⟩
    · exact ⟨.inl ha, .inl hb⟩
    · exact ⟨.inr ⟨i, v, he, ha⟩, .inl hb⟩
    · exact ⟨.inl ha, .inr ⟨i, v, he, hb⟩⟩

/-- A step that is no completion and no assertion of reset leaves R, also where it accepts a command. -/
theorem step_keeps_r {s t : State} (h : step s = .next t) (hc : ∀ l : Latch, eventOf s ≠ .completion l)
    (hr : eventOf s ≠ .reset) : t.r = s.r := by
  rcases step_next h with ⟨_, rfl⟩ | ⟨_, rfl⟩ | ⟨e, _⟩ | ⟨l, _, _, e, _⟩ | ⟨x, script, _, _, _, ht⟩
  · rfl
  · rfl
  · exact absurd e hr
  · exact absurd e (hc l)
  · exact (transact_frame ht).1

/-- A host write to R is performed and does nothing (R20). -/
theorem transact_writeOf_offR (h : Config.BusErrHandling) (i : Fin 8) (v : Word) (s : State) :
    transact h (writeOf (offR i) v) s = .next (respond .wrOk s) := by
  rw [transact_writeOf h _ (aligned_offR i), memWrite_offR, acknowledge_next]

/-- Settles O49: one clause for each kind of event, and the host's two accesses to R. -/
theorem resultChangesOnlyByCompletion : Obligations.ResultChangesOnlyByCompletion := by
  refine ⟨fun s t h => ⟨fun l he => ?_, fun he => ?_, step_keeps_r h⟩,
    fun h i v s => ⟨transact_writeOf_offR h i v s, memRead_offR i s⟩⟩
  · obtain ⟨-, -, rfl⟩ := step_of_completion h he; rfl
  · cases step_of_reset h he; rfl

/-- Settles O50: a turn that passes and a release of reset write no register. -/
theorem nothingElseChangesTheBlock : Obligations.NothingElseChangesTheBlock := by
  intro s t h he
  rcases step_next h with ⟨_, rfl⟩ | ⟨_, rfl⟩ | ⟨e, _⟩ | ⟨l, _, _, e, _⟩ | ⟨x, script, _, e, _, _⟩
  · exact ⟨rfl, rfl, rfl, rfl, rfl⟩
  · exact ⟨rfl, rfl, rfl, rfl, rfl⟩
  all_goals rw [e] at he; simp at he

end Sys2Proof.Machine
end

section
/-! PROOFS. BASE and the addresses of the window (R39), and POLL (R70). -/

namespace Sys2Proof.Machine

/-- BASE is aligned to the window's size (R39). -/
theorem base_mod_window : Config.base % 0x80 = 0 := Nat.mul_mod_right _ _

/-- The low seven bits of an address of the window are its offset (R39). -/
theorem ofNat_base_add (off : Offset) : BitVec.ofNat 7 (Config.base + off.toNat) = off := by
  have hbase := base_mod_window
  have hoff := off.isLt
  apply BitVec.eq_of_toNat_eq
  rw [BitVec.toNat_ofNat]
  omega

/-- An address of the window selects the offset of its low seven bits (R39). -/
theorem select_base_add (off : Offset) : select (Config.base + off.toNat) = some off := by
  have hoff : off.toNat < Config.WINDOW := off.isLt
  rw [select, selectAt, if_pos (by omega), ofNat_base_add]

/-- An address outside the window does not reach the block (R39). -/
theorem select_of_outside {addr : Nat} (h : addr < Config.base ∨ Config.base + 0x80 ≤ addr) : select addr = none := by
  have hwindow : Config.WINDOW = 0x80 := rfl
  rw [select, selectAt, if_neg (by omega)]

/-- Settles O24: the addresses inside the window, and those outside. -/
theorem baseSelectsTheWindow : Obligations.BaseSelectsTheWindow :=
  ⟨base_mod_window, fun off => ⟨select_base_add off, ofNat_base_add off⟩, fun _ => select_of_outside⟩

/-- The data of an aligned read (R45). -/
theorem readData_readOf {off : Offset} (ha : aligned off = true) (s : State) :
    readData (readOf off) s = memRead off s := by
  have hp : performable (readOf off) = true := by rw [performable_readOf, ha]
  rw [readData, if_pos hp, readOf]

/-- An iteration of POLL at an aligned offset reads it, and takes the statement off the script when the masked data is
the value asked for (R70). -/
theorem hostStep_of_script_poll (h : Config.BusErrHandling) {s : State} {off : Offset} {mask val : Word}
    {rest : List Stmt} (hs : s.script = .poll off mask val :: rest) (ha : aligned off = true) :
    hostStep h s = .next (respond (.rdOk (memRead off s))
      (if memRead off s &&& mask = val then { s with script := rest } else s)) := by
  simp only [hostStep, hs, readData_readOf ha]
  split
  · exact transact_readOf h off ha _
  · exact transact_readOf h off ha s

/-- Settles O36: the two branches of an iteration. -/
theorem pollRepeatsUntilTheValueIsRead : Obligations.PollRepeatsUntilTheValueIsRead := by
  intro h s off mask val rest hs hoff
  rw [hostStep_of_script_poll h hs ((aligned_iff off).2 hoff)]
  exact ⟨fun hm => by rw [if_pos hm]; rfl, fun hm => by rw [if_neg hm]; rfl⟩

end Sys2Proof.Machine
end

section
/-! PROOFS. The decode table and six vectors of 95_test_vectors.md. -/

namespace Sys2Proof.Machine

/-- Settles O4: the first three words are the encoder's, and the others are numbers from 3 up (R66). -/
theorem wordsOfTheDecodeTable : Obligations.WordsOfTheDecodeTable := by
  refine ⟨decode_encode .nop, decode_encode .add, decode_encode .sub, ?_, ?_, ?_, ?_, ?_, ?_⟩
  all_goals exact (decode_eq_none_iff _).2 (by decide)

/-- Settles O15: each vector is a closed computation of the model. -/
theorem vectorsOfTheSpec : Obligations.VectorsOfTheSpec :=
  ⟨by decide, by decide, by decide, by decide, by decide, by decide⟩

end Sys2Proof.Machine
end
